-- ==== Sys2Proof/Word.lean ====
section
/-! DEFINITION. The bit-vector types of the lrw04/lsc CORE (spec 00_scope.md R8, R10). -/

namespace Sys2Proof

/-- A memory byte (R50). -/
abbrev Byte := BitVec 8

/-- A 64-bit register value or address (R8, R20). -/
abbrev Word := BitVec 64

/-- A 32-bit instruction word (R8, R80). -/
abbrev InsnWord := BitVec 32

end Sys2Proof
end

