-- ==== Sys2Proof/Config.lean ====
section
/-! DEFINITION. What is fixed for the machine, and the construction parameters `State.reset` is built with.

The ISA has no options (R2), and no value the spec gives is left free: its decisions D1 to D25
(92_eei_decisions.md) settle every numerical result, so this file has no opaque constant.
The construction parameters of R9 are arguments of `State.construct`; the four `reset…` values below are
the arguments of the one construction that `State.reset` is. -/

namespace Sys2Proof.Config

/-- Bytes of one instruction (R8, R86). -/
def insnBytes : Nat := 4

/-- Bytes of one data access (R8, R182). -/
def dataBytes : Nat := 8

/-- What an address that the memory list does not name reads as.
DESIGN CHOICE (log 3), unsafe for `State.reset` only: the spec leaves `INIT_MEM` open (R265, D5).
Every byte content is some canonical list, so a statement over every memory loses nothing. -/
def unlistedByte : Byte := 0

/-- `MEM_SIZE` of `State.reset`. DESIGN CHOICE (log 2), unsafe: R9 allows 1 to 2^64 - 1, this is the largest. -/
def resetMemSize : Nat := 2 ^ 64 - 1

/-- `INIT_PC` of `State.reset`: "by convention, 0" (R263, D6). -/
def resetPc : Word := 0

/-- Every entry of `INIT_GPR` of `State.reset`. DESIGN CHOICE (log 1), unsafe: the spec leaves it open (R262, D4). -/
def resetGpr : Word := 0

end Sys2Proof.Config
end

