-- ==== Sys2Proof/Syntax.lean ====
section
/-! DEFINITION. The instructions: one constructor per row of spec/opcode_table.json (R2, R88).

Each constructor holds exactly the fields its format reads (R84); the bits an instruction ignores (R82) are
no part of it. -/

namespace Sys2Proof

/-- A register field: every index 0 to 31 is an ordinary register (R20, R21). -/
abbrev Reg := Fin 32

/-- The four instruction formats of R84. -/
inductive Format where
  | n | r3 | r2 | i
  deriving DecidableEq, Repr

/-- The opcode table. Register fields are `d`, `a`, `b`; `imm` is the 22-bit immediate as a number (R83),
whose bound is the check of WellFormed.lean. -/
inductive Instr where
  | nop
  | sys (d : Reg) (imm : Nat)
  | sdiv (d a b : Reg)
  | smod (d a b : Reg)
  | add (d a b : Reg)
  | sub (d a b : Reg)
  | mul (d a b : Reg)
  | udiv (d a b : Reg)
  | umod (d a b : Reg)
  | fadd (d a b : Reg)
  | fsub (d a b : Reg)
  | fmul (d a b : Reg)
  | fdiv (d a b : Reg)
  | ftoi (d a : Reg)
  | itof (d a : Reg)
  | and (d a b : Reg)
  | or (d a b : Reg)
  | xor (d a b : Reg)
  | not (d a : Reg)
  | shl (d a b : Reg)
  | shr (d a b : Reg)
  | ld (d a : Reg)
  | st (d a : Reg)
  | ldi (d : Reg) (imm : Nat)
  | mov (d a : Reg)
  | jnz (d a : Reg)
  | reserved26
  | reserved27
  | reserved28
  | reserved29
  | reserved30
  | reserved31
  deriving DecidableEq, Repr

end Sys2Proof
end

