-- ==== Sys2Proof/WellFormed.lean ====
section
/-! DEFINITION. Which instruction terms an encoding exists for.

A register field is bounded by its type, so the immediate's 22-bit range (R83, R85) is the one check. -/

namespace Sys2Proof

/-- The immediate field holds 0 to 2^22 - 1 (R83). -/
def immInRange (imm : Nat) : Bool := imm < 2 ^ 22

/-- The fields of the instruction fit its encoding (R85). -/
def Instr.wellFormed : Instr → Bool
  | .sys _ imm => immInRange imm
  | .ldi _ imm => immInRange imm
  | .nop | .sdiv .. | .smod .. | .add .. | .sub .. | .mul .. | .udiv .. | .umod ..
  | .fadd .. | .fsub .. | .fmul .. | .fdiv .. | .ftoi .. | .itof ..
  | .and .. | .or .. | .xor .. | .not .. | .shl .. | .shr ..
  | .ld .. | .st .. | .mov .. | .jnz ..
  | .reserved26 | .reserved27 | .reserved28 | .reserved29 | .reserved30 | .reserved31 => true

end Sys2Proof
end

