-- ==== Sys2Proof/Decode.lean ====
section
/-! DEFINITION. The instruction decoder (R80 to R90), the encoder that inverts it (R85), the opcode map (R88) and
the pseudo-instructions (R96). -/

namespace Sys2Proof

/-! ### Fields -/

/-- The 5-bit field of `w` whose lowest bit is `lo` (R10, R81). -/
def regField (w : InsnWord) (lo : Nat) : Fin 32 := Fin.ofNat 32 (w.toNat / 2 ^ lo)

/-- `op = w[31:27]` (R81). -/
def opField (w : InsnWord) : Fin 32 := regField w 27

/-- `d = w[26:22]` (R81). -/
def dField (w : InsnWord) : Reg := regField w 22

/-- `a = w[21:17]` (R81). -/
def aField (w : InsnWord) : Reg := regField w 17

/-- `b = w[16:12]` (R81). -/
def bField (w : InsnWord) : Reg := regField w 12

/-- `imm = w[21:0]`, unsigned, never extended, scaled or shifted (R81, R83). -/
def immField (w : InsnWord) : Nat := w.toNat % 2 ^ 22

/-! ### The decoder -/

/-- The instruction of opcode `op` with the given fields: the opcode map of R88, exhaustive over 0 to 31 (R87).
The last arm is a number that is no 5-bit opcode. -/
def instrOf (op : Fin 32) (d a b : Reg) (imm : Nat) : Instr :=
  match op with
  | ⟨0, _⟩ => .nop
  | ⟨1, _⟩ => .sys d imm
  | ⟨2, _⟩ => .sdiv d a b
  | ⟨3, _⟩ => .smod d a b
  | ⟨4, _⟩ => .add d a b
  | ⟨5, _⟩ => .sub d a b
  | ⟨6, _⟩ => .mul d a b
  | ⟨7, _⟩ => .udiv d a b
  | ⟨8, _⟩ => .umod d a b
  | ⟨9, _⟩ => .fadd d a b
  | ⟨10, _⟩ => .fsub d a b
  | ⟨11, _⟩ => .fmul d a b
  | ⟨12, _⟩ => .fdiv d a b
  | ⟨13, _⟩ => .ftoi d a
  | ⟨14, _⟩ => .itof d a
  | ⟨15, _⟩ => .and d a b
  | ⟨16, _⟩ => .or d a b
  | ⟨17, _⟩ => .xor d a b
  | ⟨18, _⟩ => .not d a
  | ⟨19, _⟩ => .shl d a b
  | ⟨20, _⟩ => .shr d a b
  | ⟨21, _⟩ => .ld d a
  | ⟨22, _⟩ => .st d a
  | ⟨23, _⟩ => .ldi d imm
  | ⟨24, _⟩ => .mov d a
  | ⟨25, _⟩ => .jnz d a
  | ⟨26, _⟩ => .reserved26
  | ⟨27, _⟩ => .reserved27
  | ⟨28, _⟩ => .reserved28
  | ⟨29, _⟩ => .reserved29
  | ⟨30, _⟩ => .reserved30
  | ⟨31, _⟩ => .reserved31
  | ⟨n + 32, h⟩ => absurd h (by omega)

/-- The decoder: total, stateless, reads only the word (R80, R82, R90). -/
def decode (w : InsnWord) : Instr :=
  instrOf (opField w) (dField w) (aField w) (bField w) (immField w)

/-- Why a byte string is no instruction. Raised by `decodeBytes` only; a fetch always yields four bytes. -/
inductive DecodeError where
  /-- Fewer than four bytes: every instruction is exactly 4 bytes (R86). -/
  | truncated
  deriving DecidableEq, Repr

/-- The word of four bytes, the first least significant (R54, R56). -/
def wordOfBytes (b0 b1 b2 b3 : Byte) : InsnWord :=
  BitVec.ofNat 32 (b0.toNat + 2 ^ 8 * b1.toNat + 2 ^ 16 * b2.toNat + 2 ^ 24 * b3.toNat)

/-- The bytes of a word in memory order (R54, R57). -/
def bytesOfWord (w : InsnWord) : List Byte :=
  [BitVec.ofNat 8 w.toNat, BitVec.ofNat 8 (w.toNat / 2 ^ 8), BitVec.ofNat 8 (w.toNat / 2 ^ 16),
    BitVec.ofNat 8 (w.toNat / 2 ^ 24)]

/-- Decoding a byte string: the first instruction and the bytes after it. -/
def decodeBytes : List Byte → Except DecodeError (Instr × List Byte)
  | b0 :: b1 :: b2 :: b3 :: rest => .ok (decode (wordOfBytes b0 b1 b2 b3), rest)
  | _ => .error .truncated

/-- The decoder on an instruction numbered as the opcode table numbers it: `nbits` bits of `w`, the bits above
them zero, laid out as memory holds them. The table has no row of more than 32 bits. -/
def decodeTableWord (nbits w : Nat) : Option Instr :=
  if nbits ≤ 32 then
    match decodeBytes (bytesOfWord (BitVec.ofNat 32 (w % 2 ^ nbits))) with
    | .ok (i, _) => some i
    | .error _ => none
  else none

/-! ### The opcode map -/

/-- The opcode of an instruction (R88, R89). -/
def Instr.opcode : Instr → Fin 32
  | .nop => 0
  | .sys .. => 1
  | .sdiv .. => 2
  | .smod .. => 3
  | .add .. => 4
  | .sub .. => 5
  | .mul .. => 6
  | .udiv .. => 7
  | .umod .. => 8
  | .fadd .. => 9
  | .fsub .. => 10
  | .fmul .. => 11
  | .fdiv .. => 12
  | .ftoi .. => 13
  | .itof .. => 14
  | .and .. => 15
  | .or .. => 16
  | .xor .. => 17
  | .not .. => 18
  | .shl .. => 19
  | .shr .. => 20
  | .ld .. => 21
  | .st .. => 22
  | .ldi .. => 23
  | .mov .. => 24
  | .jnz .. => 25
  | .reserved26 => 26
  | .reserved27 => 27
  | .reserved28 => 28
  | .reserved29 => 29
  | .reserved30 => 30
  | .reserved31 => 31

/-- The format of an opcode (R84, R88). -/
def formatOf (op : Fin 32) : Format :=
  if op = 1 ∨ op = 23 then .i
  else if op = 13 ∨ op = 14 ∨ op = 18 ∨ op = 21 ∨ op = 22 ∨ op = 24 ∨ op = 25 then .r2
  else if op = 0 ∨ 26 ≤ op.val then .n
  else .r3

/-- The bits a format reads (R82, R84): ones where the instruction depends on the word. -/
def Format.readMask : Format → InsnWord
  | .n => 0xF8000000
  | .r3 => 0xFFFFF000
  | .r2 => 0xFFFE0000
  | .i => 0xFFFFFFFF

/-! ### The encoder -/

/-- `N` : `op << 27` (R85). -/
def encodeN (op : Fin 32) : InsnWord := BitVec.ofNat 32 (op.val * 2 ^ 27)

/-- `R3`: `op << 27 | d << 22 | a << 17 | b << 12` (R85); the fields do not overlap, so the sum is the or. -/
def encodeR3 (op : Fin 32) (d a b : Reg) : InsnWord :=
  BitVec.ofNat 32 (op.val * 2 ^ 27 + d.val * 2 ^ 22 + a.val * 2 ^ 17 + b.val * 2 ^ 12)

/-- `R2`: `op << 27 | d << 22 | a << 17` (R85). -/
def encodeR2 (op : Fin 32) (d a : Reg) : InsnWord :=
  BitVec.ofNat 32 (op.val * 2 ^ 27 + d.val * 2 ^ 22 + a.val * 2 ^ 17)

/-- `I` : `op << 27 | d << 22 | imm` (R85). -/
def encodeI (op : Fin 32) (d : Reg) (imm : Nat) : InsnWord :=
  BitVec.ofNat 32 (op.val * 2 ^ 27 + d.val * 2 ^ 22 + imm)

/-- The word of a well-formed instruction, ignored fields zero (R85). -/
def encode : Instr → InsnWord
  | .nop => encodeN 0
  | .sys d imm => encodeI 1 d imm
  | .sdiv d a b => encodeR3 2 d a b
  | .smod d a b => encodeR3 3 d a b
  | .add d a b => encodeR3 4 d a b
  | .sub d a b => encodeR3 5 d a b
  | .mul d a b => encodeR3 6 d a b
  | .udiv d a b => encodeR3 7 d a b
  | .umod d a b => encodeR3 8 d a b
  | .fadd d a b => encodeR3 9 d a b
  | .fsub d a b => encodeR3 10 d a b
  | .fmul d a b => encodeR3 11 d a b
  | .fdiv d a b => encodeR3 12 d a b
  | .ftoi d a => encodeR2 13 d a
  | .itof d a => encodeR2 14 d a
  | .and d a b => encodeR3 15 d a b
  | .or d a b => encodeR3 16 d a b
  | .xor d a b => encodeR3 17 d a b
  | .not d a => encodeR2 18 d a
  | .shl d a b => encodeR3 19 d a b
  | .shr d a b => encodeR3 20 d a b
  | .ld d a => encodeR2 21 d a
  | .st d a => encodeR2 22 d a
  | .ldi d imm => encodeI 23 d imm
  | .mov d a => encodeR2 24 d a
  | .jnz d a => encodeR2 25 d a
  | .reserved26 => encodeN 26
  | .reserved27 => encodeN 27
  | .reserved28 => encodeN 28
  | .reserved29 => encodeN 29
  | .reserved30 => encodeN 30
  | .reserved31 => encodeN 31

/-! ### Pseudo-instructions -/

/-- The pseudo-instructions of R96. -/
inductive Pseudo where
  | j (rs : Reg)
  | jmp (imm : Nat)
  | rdpc (rd : Reg)
  | halt
  | fail
  | debug (rs : Reg)
  deriving DecidableEq, Repr

/-- Each pseudo-instruction is an exact expansion into one instruction (R96). -/
def Pseudo.expand : Pseudo → Instr
  | .j rs => .mov 31 rs
  | .jmp imm => .ldi 31 imm
  | .rdpc rd => .mov rd 31
  | .halt => .sys 0 1
  | .fail => .sys 0 2
  | .debug rs => .sys rs 3

end Sys2Proof
end

