-- ==== Sys2Proof/Machine/Memory.lean ====
section
/-! DEFINITION. The flat byte memory as a canonical list of (address, byte) pairs, and its little-endian accesses
(R12, R50, R51, R54). Bounds are checked in Ops.lean; here an address is any natural number. -/

namespace Sys2Proof.Machine

/-- Memory contents: the addresses that do not read as `Config.unlistedByte`, with their bytes (R50, log 14). -/
abbrev Memory := List Host.Cell

/-- The canonical form: addresses strictly rising, no entry equal to what an unlisted address reads as. -/
abbrev Memory.wf (m : Memory) : Prop :=
  m.Pairwise (fun c e => c.1 < e.1) ∧ ∀ c ∈ m, c.2 ≠ Config.unlistedByte

/-- The byte at `addr`, `M[addr]` (R12). -/
def Memory.read : Memory → Nat → Byte
  | [], _ => Config.unlistedByte
  | (a, b) :: m, addr => if addr = a then b else Memory.read m addr

/-- Put a cell in front, unless it holds what an unlisted address reads as. -/
def Memory.push (addr : Nat) (v : Byte) (m : Memory) : Memory :=
  if v = Config.unlistedByte then m else (addr, v) :: m

/-- `M[addr] <- v`, keeping the canonical form. -/
def Memory.write : Memory → Nat → Byte → Memory
  | [], addr, v => Memory.push addr v []
  | (a, b) :: m, addr, v =>
    if addr < a then Memory.push addr v ((a, b) :: m)
    else if addr = a then Memory.push addr v m
    else (a, b) :: Memory.write m addr v

/-- `M[addr] + 256*M[addr+1] + … + 256^(n-1)*M[addr+n-1]` (R12, R54). -/
def Memory.readLE (m : Memory) (addr : Nat) : Nat → Nat
  | 0 => 0
  | n + 1 => (Memory.read m addr).toNat + 256 * Memory.readLE m (addr + 1) n

/-- Write byte `k` of `v` (bits `8k+7:8k`) to `M[addr+k]` for `k = 0` to `n-1` (R12, R54). -/
def Memory.writeLE (m : Memory) (addr : Nat) : Nat → Nat → Memory
  | 0, _ => m
  | n + 1, v => Memory.writeLE (Memory.write m addr (BitVec.ofNat 8 v)) (addr + 1) n (v / 256)

/-- An image: a sequence of bytes placed from address `addr` on (R61, R265). -/
def Memory.place (m : Memory) (addr : Nat) : List Byte → Memory
  | [] => m
  | b :: bs => Memory.place (Memory.write m addr b) (addr + 1) bs

end Sys2Proof.Machine
end

