-- ==== Sys2Proof/Machine/State.lean ====
section
/-! DEFINITION. The state of one core: register file, memory and its size, run state, the word of the step in
progress, and the diagnostic lines sent to the host (R20, R29, R30, R50, R234). The core has no flags, control
registers, modes, interrupts, reservations or counters (R26, R27, R30, R235, R240, R241). -/

namespace Sys2Proof.Machine

/-- The three kinds of memory access (R52, R53). -/
inductive AccessKind where
  | fetch | load | store
  deriving DecidableEq, Repr

/-- The sub-kinds of ArithmeticFault (R220, R222). -/
inductive ArithReason where
  | divideByZero | overflow
  deriving DecidableEq, Repr

/-- What a step can raise (R220 codes 1 to 3, R228), with the sub-kind it records. -/
inductive FaultCause where
  | memoryFault (kind : AccessKind) (addr : Word)
  | arithmeticFault (reason : ArithReason)
  | reservedOpcode (op : Fin 32)
  deriving DecidableEq, Repr

/-- The fault record (R227): the cause with its sub-kind, the address of the faulting instruction, and its word
when the fetch succeeded. The cause code is `FaultCause.errorKind` and `ErrorKind.code`. -/
structure FaultRecord where
  cause : FaultCause
  pc : Word
  word : Option InsnWord
  deriving DecidableEq, Repr

/-- The run state (R29). Every state but `running` is terminal. -/
inductive RunState where
  | running
  | halted (status : Fin 2)
  | aborted (code : Word)
  | faulted (record : FaultRecord)
  deriving DecidableEq, Repr

/-- Everything the spec gives one core (R266, R29, R30, R234). -/
structure State where
  /-- `x[0]` to `x[31]`; `x[31]` is the program counter and has no other home (R20, R23). -/
  regs : Vector Word 32
  /-- The bytes of `M` (R50). -/
  mem : Memory
  /-- `MEM_SIZE`: at most 2^64 - 1 (R9, D5), never changed (R50). -/
  memSize : Fin (2 ^ 64)
  /-- The run state (R29). -/
  run : RunState
  /-- The instruction word of the step in progress; `none` between steps (R30, log 11). -/
  fetched : Option InsnWord
  /-- The diagnostic lines emitted so far, oldest first, each with its line feed (R233, R234). -/
  diag : List (List Char)
  deriving DecidableEq, Repr

/-- Why a step has no next state. -/
inductive Fault where
  /-- The core is in a terminal run state and takes no step (R29, R94). Raised by `step` only; safe, since no
  input moves the core back to `running`. The faults the SPEC names are no fault of this type: they lead to the
  next state whose run state is `faulted` (R226, log 5). -/
  | notRunning
  deriving DecidableEq, Repr

/-- Why an instruction has no meaning in this model. -/
inductive Refusal where
  /-- The instruction has no meaning yet. Raised by an arm of `exec`; safe. No arm raises it now. -/
  | notModelled (mnemonic : String)
  deriving DecidableEq, Repr

/-- The core right after the construction with the parameters named in Config.lean: registers 0 to 30 hold
`INIT_GPR`, register 31 `INIT_PC`, memory lists nothing, the run state is `running` (R262 to R266; logs 1 to 4).
`State.construct` (Construct.lean) is construction with any parameters. -/
def State.reset : State where
  regs := (Vector.replicate 32 Config.resetGpr).set 31 Config.resetPc
  mem := []
  memSize := ⟨Config.resetMemSize, by decide⟩
  run := .running
  fetched := none
  diag := []

end Sys2Proof.Machine
end

