-- ==== Sys2Proof/Machine/Ops.lean ====
section
/-! DEFINITION. The named operations over registers and memory, the memory bus interface, and raising a fault.
There is no return from a fault: a fault ends the run (R229). -/

namespace Sys2Proof.Machine

/-- What a meaning answers. -/
abbrev Result := Host.Outcome State Fault Refusal

/-! ### Register file -/

/-- `x[i]` (R11, R21). -/
def State.reg (s : State) (i : Reg) : Word := s.regs[i.val]

/-- `x[i] <- v` (R11, R21): the one generic write path. -/
def State.setReg (s : State) (i : Reg) (v : Word) : State := { s with regs := s.regs.set i.val v }

/-- The index of the program counter (R8, R23). -/
def pcReg : Reg := 31

/-- The PC port's read: `x[31]` under the name `pc` (R11, R23, R35). -/
def State.pc (s : State) : Word := s.reg pcReg

/-- `pc <- target`, that is `x[31] <- target` (R11). -/
def State.setPc (s : State) (target : Word) : State := s.setReg pcReg target

/-! ### Memory -/

/-- `M[addr]`. -/
def State.byteAt (s : State) (addr : Nat) : Byte := s.mem.read addr

/-- The bounds check: `addr + n <= MEM_SIZE` on mathematical integers, no wrap (R55, D7). -/
def State.inRange (s : State) (addr : Word) (n : Nat) : Bool := addr.toNat + n ≤ s.memSize.val

/-- `Fetch(addr)` of the memory bus interface: 4 bytes, any alignment (R53, R56, R58). -/
def State.busFetch (s : State) (addr : Word) : Except FaultCause InsnWord :=
  if s.inRange addr Config.insnBytes then .ok (BitVec.ofNat 32 (s.mem.readLE addr.toNat Config.insnBytes))
  else .error (.memoryFault .fetch addr)

/-- `Load(addr)`: 8 bytes, any alignment (R53, R58, R180). -/
def State.busLoad (s : State) (addr : Word) : Except FaultCause Word :=
  if s.inRange addr Config.dataBytes then .ok (BitVec.ofNat 64 (s.mem.readLE addr.toNat Config.dataBytes))
  else .error (.memoryFault .load addr)

/-- `Store(addr, v)`: 8 bytes, any alignment; a failed check writes no byte (R53, R55, R58, R181). -/
def State.busStore (s : State) (addr v : Word) : Except FaultCause State :=
  if s.inRange addr Config.dataBytes then
    .ok { s with mem := s.mem.writeLE addr.toNat Config.dataBytes v.toNat }
  else .error (.memoryFault .store addr)

/-! ### Faults -/

/-- The five error kinds (R220). -/
inductive ErrorKind where
  | memoryFault | arithmeticFault | reservedOpcode | unknownHypercall | invalidConstruction
  deriving DecidableEq, Repr

/-- The numeric cause codes (R220, D17). -/
def ErrorKind.code : ErrorKind → Nat
  | .memoryFault => 1
  | .arithmeticFault => 2
  | .reservedOpcode => 3
  | .unknownHypercall => 4
  | .invalidConstruction => 5

/-- The kind of a cause (R220). -/
def FaultCause.errorKind : FaultCause → ErrorKind
  | .memoryFault .. => .memoryFault
  | .arithmeticFault _ => .arithmeticFault
  | .reservedOpcode _ => .reservedOpcode

/-- The error kind a terminal run state reports, if any (R224, R226, R234). -/
def RunState.errorKind : RunState → Option ErrorKind
  | .running => none
  | .halted _ => none
  | .aborted _ => some .unknownHypercall
  | .faulted r => some r.cause.errorKind

/-- Taking a fault (R226, R227): `x[31]` holds the address of the faulting instruction, nothing else of the
register file or memory changes, and the run state becomes `Faulted(record)`. -/
def State.takeFault (s : State) (cause : FaultCause) (pc : Word) (word : Option InsnWord) : State :=
  { s.setPc pc with run := .faulted ⟨cause, pc, word⟩ }

/-- `raise` inside an instruction (R13, R226): the advance of R91 is undone. An instruction raises before it
writes anything, so `x[31]` still holds the advanced value (log 11). -/
def State.raise (s : State) (cause : FaultCause) : State := s.takeFault cause (s.pc - 4) s.fetched

end Sys2Proof.Machine
end

