-- ==== Sys2Proof/Machine/Flags.lean ====
section
/-! DEFINITION. The conditions that instructions test. The core has no flags, condition codes or predicate
registers (R26): no instruction writes one, and each condition below is computed from the operands where it is tested. -/

namespace Sys2Proof.Machine

/-- The condition of `jnz`: the whole 64-bit value, as an integer, is not 0 (R200). -/
def isTrue (v : Word) : Bool := v ≠ 0

/-- The divisor is zero (R120, R121, R125, R126). -/
def isZeroDivisor (q : Word) : Bool := q = 0

/-- The one signed quotient that does not fit in 64 bits, `-2^63 / -1` (R128, D11). -/
def isDivOverflow (p q : Word) : Bool := p.toInt = -2 ^ 63 ∧ q.toInt = -1

/-- The shift amount, the whole 64-bit value and not masked, is 64 or more (R166, D10). -/
def isLongShift (q : Word) : Bool := 64 ≤ q.toNat

end Sys2Proof.Machine
end

