-- ==== Sys2Proof/Machine/Operands.lean ====
section
/-! DEFINITION. The operand forms of the formats (R84) as one shape each: general reads after the advance, then at
most one general write, so that an instruction reads the old value of a register it also writes (R35, R91, R182).
A write of register 31 is a jump (R201) and needs no form of its own. -/

namespace Sys2Proof.Machine

/-- `R3`: `x[d] <- f(x[a], x[b])`. -/
def formR3 (f : Word → Word → Word) (d a b : Reg) (s : State) : Result :=
  .next (s.setReg d (f (s.reg a) (s.reg b)))

/-- `R3` with an operation that may raise ArithmeticFault (R36, R222). -/
def formR3Fault (f : Word → Word → Except ArithReason Word) (d a b : Reg) (s : State) : Result :=
  match f (s.reg a) (s.reg b) with
  | .ok v => .next (s.setReg d v)
  | .error reason => .next (s.raise (.arithmeticFault reason))

/-- `R2`: `x[d] <- f(x[a])`. -/
def formR2 (f : Word → Word) (d a : Reg) (s : State) : Result :=
  .next (s.setReg d (f (s.reg a)))

/-- `I`: `x[d] <- zext_64(imm)` (R83). -/
def formI (d : Reg) (imm : Nat) (s : State) : Result :=
  .next (s.setReg d (BitVec.ofNat 64 imm))

end Sys2Proof.Machine
end

