-- ==== Sys2Proof/Machine/Alu.lean ====
section
/-! DEFINITION. The integer, logic and shift operations of the ALU: pure functions of two 64-bit operands to a
result or a reason for ArithmeticFault (R36, R127, R128, R160 to R166). Each is computed on mathematical integers
and narrowed at the end. -/

namespace Sys2Proof.Machine.Alu

/-- `(p + q) mod 2^64` (R122). -/
def add (p q : Word) : Word := BitVec.ofNat 64 (p.toNat + q.toNat)

/-- `(p - q) mod 2^64` (R123). -/
def sub (p q : Word) : Word := BitVec.ofInt 64 ((p.toNat : Int) - (q.toNat : Int))

/-- `(p * q) mod 2^64` (R124). -/
def mul (p q : Word) : Word := BitVec.ofNat 64 (p.toNat * q.toNat)

/-- `floor(u64(p) / u64(q))` (R125). -/
def udiv (p q : Word) : Except ArithReason Word :=
  if isZeroDivisor q then .error .divideByZero else .ok (BitVec.ofNat 64 (p.toNat / q.toNat))

/-- `u64(p) - u64(q) * floor(u64(p) / u64(q))` (R126). -/
def umod (p q : Word) : Except ArithReason Word :=
  if isZeroDivisor q then .error .divideByZero
  else .ok (BitVec.ofNat 64 (p.toNat - q.toNat * (p.toNat / q.toNat)))

/-- `trunc(s64(p) / s64(q))`, toward zero; the zero divisor is tested first (R120, R128, R228). -/
def sdiv (p q : Word) : Except ArithReason Word :=
  if isZeroDivisor q then .error .divideByZero
  else if isDivOverflow p q then .error .overflow
  else .ok (BitVec.ofInt 64 (p.toInt.tdiv q.toInt))

/-- `n - m * trunc(n / m)` (R121, R128). -/
def smod (p q : Word) : Except ArithReason Word :=
  if isZeroDivisor q then .error .divideByZero
  else if isDivOverflow p q then .error .overflow
  else .ok (BitVec.ofInt 64 (p.toInt - q.toInt * p.toInt.tdiv q.toInt))

/-- `p & q` (R160). -/
def and (p q : Word) : Word := p &&& q

/-- `p | q` (R161). -/
def or (p q : Word) : Word := p ||| q

/-- `p ^ q` (R162). -/
def xor (p q : Word) : Word := p ^^^ q

/-- `~p` (R163). -/
def not (p : Word) : Word := ~~~p

/-- `(p * 2^n) mod 2^64`, and 0 for an amount of 64 or more (R164, R166). -/
def shl (p q : Word) : Word := if isLongShift q then 0 else BitVec.ofNat 64 (p.toNat * 2 ^ q.toNat)

/-- `floor(u64(p) / 2^n)`, and 0 for an amount of 64 or more (R165, R166). -/
def shr (p q : Word) : Word := if isLongShift q then 0 else BitVec.ofNat 64 (p.toNat / 2 ^ q.toNat)

end Sys2Proof.Machine.Alu
end

