-- ==== Sys2Proof/Machine/Binary64.lean ====
section
/-! DEFINITION. IEEE-754 binary64 on 64-bit patterns (R14, R140, R147, R148): reading a pattern, rounding to
nearest with ties to even, NaN results, the four operations and the two conversions.

Every finite binary64 value is an integer multiple of 2^-1074, so a finite value is held EXACTLY as a sign and a
natural number of units of 2^-1074. Sums, products and quotients are then exact integers or fractions, and the one
place where anything is rounded is `Binary64.round` (log 12). -/

namespace Sys2Proof.Machine

/-- What a pattern stands for: `fin neg mag` is `(-1)^neg * mag * 2^-1074`. -/
inductive Binary64 where
  | nan
  | inf (neg : Bool)
  | fin (neg : Bool) (mag : Nat)
  deriving DecidableEq, Repr

/-- Units of 2^-1074 in 1. -/
def Binary64.one : Nat := 2 ^ 1074

/-- Bit 63 (R14). -/
def Binary64.signBit (v : Word) : Bool := 2 ^ 63 ≤ v.toNat

/-- Bits 62:52 (R14). -/
def Binary64.expField (v : Word) : Nat := v.toNat / 2 ^ 52 % 2 ^ 11

/-- Bits 51:0 (R14). -/
def Binary64.fracField (v : Word) : Nat := v.toNat % 2 ^ 52

/-- `f64(v)`: the pattern read as a binary64 value; subnormals are read exactly (R14, R147). -/
def Binary64.ofBits (v : Word) : Binary64 :=
  if expField v = 2047 then
    if fracField v = 0 then .inf (signBit v) else .nan
  else if expField v = 0 then .fin (signBit v) (fracField v)
  else .fin (signBit v) ((2 ^ 52 + fracField v) * 2 ^ (expField v - 1))

/-- The pattern of positive infinity without its sign. -/
def Binary64.infPattern : Nat := 2047 * 2 ^ 52

/-- A pattern from its sign and its bits 62:0. -/
def Binary64.pack (neg : Bool) (low : Nat) : Word := BitVec.ofNat 64 ((if neg then 2 ^ 63 else 0) + low)

/-- The pattern of an infinity. -/
def Binary64.infBits (neg : Bool) : Word := pack neg infPattern

/-- The pattern of a zero. -/
def Binary64.zeroBits (neg : Bool) : Word := pack neg 0

/-- The integer nearest to `num / den`, the even one of two equally near (D13). -/
def roundHalfEven (num den : Nat) : Nat :=
  let q := num / den
  let r := num % den
  if 2 * r < den then q else if den < 2 * r then q + 1 else q + q % 2

/-- How many low bits of units the 53-bit significand of `num / den` units leaves out. -/
def Binary64.scale (num den : Nat) : Nat := Nat.log2 (num / den) - 52

/-- Bits 62:0 of the binary64 value nearest to `num / den` units of 2^-1074, ties to even, overflow to infinity
(R147, D13). With `k` the scale and `m` the rounded significand, the pattern is `k * 2^52 + m`: for `k = 0` this is
the subnormal or lowest normal pattern `m` itself, otherwise the exponent field is `k + 1` and the fraction is
`m - 2^52`, and a significand that rounds up to 2^53 carries into the exponent. -/
def Binary64.roundLow (num den : Nat) : Nat :=
  let k := scale num den
  min (k * 2 ^ 52 + roundHalfEven num (den * 2 ^ k)) infPattern

/-- `bits(round(r))` for the real `r = (-1)^neg * (num / den) * 2^-1074` (R14, R147). -/
def Binary64.round (neg : Bool) (num den : Nat) : Word := pack neg (roundLow num den)

/-! ### NaN results -/

/-- The pattern is a NaN. -/
def Binary64.isNaN (v : Word) : Bool := ofBits v = .nan

/-- The pattern with bit 51 set (R148). -/
def Binary64.quiet (v : Word) : Word := v ||| 0x0008000000000000

/-- The default NaN (R148). -/
def Binary64.defaultNaN : Word := 0xFFF8000000000000

/-- `NaNResult(p, q, op)` of R148, which does not depend on `op`. -/
def Binary64.nanResult (p q : Word) : Word :=
  if isNaN p then quiet p else if isNaN q then quiet q else defaultNaN

/-! ### The operations -/

/-- The units of a finite value with their sign. -/
def Binary64.signed (neg : Bool) (mag : Nat) : Int := if neg then -(mag : Int) else mag

/-- The pattern with its sign bit flipped. -/
def Binary64.flipSign (v : Word) : Word := v ^^^ 0x8000000000000000

/-- The sum of two values that are not NaN; `nan` patterns are the caller's. An exact zero sum is -0 only when both
operands are negative (R141, log 12). -/
def Binary64.addValues (x y : Binary64) : Option Word :=
  match x, y with
  | .nan, _ => none
  | _, .nan => none
  | .inf s, .inf t => if s = t then some (infBits s) else none
  | .inf s, .fin _ _ => some (infBits s)
  | .fin _ _, .inf t => some (infBits t)
  | .fin s m, .fin t n =>
    let z := signed s m + signed t n
    some (if z = 0 then zeroBits (s && t) else round (z < 0) z.natAbs 1)

/-- The product; the sign is the exclusive-or of the signs; `none` for `0 * inf` and NaN operands (R143, R148).
The product of `m` and `n` units is `m * n / 2^1074` units. -/
def Binary64.mulValues (x y : Binary64) : Option Word :=
  match x, y with
  | .nan, _ => none
  | _, .nan => none
  | .inf s, .inf t => some (infBits (s != t))
  | .inf s, .fin t n => if n = 0 then none else some (infBits (s != t))
  | .fin s m, .inf t => if m = 0 then none else some (infBits (s != t))
  | .fin s m, .fin t n => some (round (s != t) (m * n) one)

/-- The quotient; `none` for `0 / 0`, `inf / inf` and NaN operands; a finite nonzero value over zero is an infinity,
anything finite over an infinity is a zero (R144, R147, R148). -/
def Binary64.divValues (x y : Binary64) : Option Word :=
  match x, y with
  | .nan, _ => none
  | _, .nan => none
  | .inf _, .inf _ => none
  | .inf s, .fin t _ => some (infBits (s != t))
  | .fin s _, .inf t => some (zeroBits (s != t))
  | .fin s m, .fin t n =>
    if n = 0 then (if m = 0 then none else some (infBits (s != t)))
    else some (round (s != t) (m * one) n)

/-- `fadd` (R141, R148). -/
def Binary64.add (p q : Word) : Word := (addValues (ofBits p) (ofBits q)).getD (nanResult p q)

/-- `fsub` (R142, R148): the sum with the sign of the subtrahend flipped; NaN operands keep their own sign. -/
def Binary64.sub (p q : Word) : Word := (addValues (ofBits p) (ofBits (flipSign q))).getD (nanResult p q)

/-- `fmul` (R143, R148). -/
def Binary64.mul (p q : Word) : Word := (mulValues (ofBits p) (ofBits q)).getD (nanResult p q)

/-- `fdiv` (R144, R148). -/
def Binary64.div (p q : Word) : Word := (divValues (ofBits p) (ofBits q)).getD (nanResult p q)

/-- `ftoi`: truncation toward zero, saturating, NaN to 0 (R145, D12). A negative value is at most -1 or truncates
to 0, so it gives 0 either way. -/
def Binary64.toUnsigned (p : Word) : Word :=
  match ofBits p with
  | .nan => 0
  | .inf neg => if neg then 0 else 0xFFFFFFFFFFFFFFFF
  | .fin neg mag =>
    if neg then 0
    else if 2 ^ 64 * one ≤ mag then 0xFFFFFFFFFFFFFFFF
    else BitVec.ofNat 64 (mag / one)

/-- `itof`: `bits(round(u64(p)))` (R146). -/
def Binary64.ofUnsigned (p : Word) : Word := round false (p.toNat * one) 1

end Sys2Proof.Machine
end

