-- ==== Sys2Proof/Machine/Hypercall.lean ====
section
/-! DEFINITION. The hypercall port (R33) and the host's contract, the Hypercall Bridge (R6, R230 to R234). The host
answers within the step that sends the request, and its answer is a function of the request (R230, D18). -/

namespace Sys2Proof.Machine

/-- `HcallReq(code, value)` (R33). -/
structure HcallReq where
  code : Word
  value : Word
  deriving DecidableEq, Repr

/-- The host's answer: exactly one of the three (R33). -/
inductive HcallAnswer where
  | continue
  | halt (status : Fin 2)
  | abort (code : Word)
  deriving DecidableEq, Repr

/-- The host's answer to a request: a function of its code alone (R230, R231, R232). -/
def HcallReq.answer (r : HcallReq) : HcallAnswer :=
  if r.code = 1 then .halt 0
  else if r.code = 2 then .halt 1
  else if r.code = 3 then .continue
  else .abort r.code

/-- The run state the core enters on an answer (R33, R230). -/
def HcallAnswer.runState : HcallAnswer → RunState
  | .continue => .running
  | .halt status => .halted status
  | .abort code => .aborted code

/-- The decimal digit of a number below 10. -/
def digitChar (n : Nat) : Char := Char.ofNat (48 + n % 10)

/-- The decimal digits of `n`, most significant first, no leading zeros; `fuel` bounds their number. -/
def decimalDigits : Nat → Nat → List Char
  | 0, _ => []
  | fuel + 1, n => if n < 10 then [digitChar n] else decimalDigits fuel (n / 10) ++ [digitChar n]

/-- A signed 64-bit value in decimal: a leading `-` when negative, no `+`, no leading zeros (R233). The magnitude is
at most 2^63, which has 19 digits. -/
def signedDecimal (v : Int) : List Char :=
  if v < 0 then '-' :: decimalDigits 20 v.natAbs else decimalDigits 20 v.natAbs

/-- The diagnostic line for a value: `debug: `, the signed decimal, a line feed (R233, D19). -/
def diagLine (v : Word) : List Char :=
  ['d', 'e', 'b', 'u', 'g', ':', ' '] ++ signedDecimal v.toInt ++ ['\n']

/-- The lines the host emits for a request: one for code 3, none otherwise (R230, R233). -/
def HcallReq.lines (r : HcallReq) : List (List Char) := if r.code = 3 then [diagLine r.value] else []

/-- Sending a request and taking the host's answer: the run state is what the answer says, the lines are emitted,
and no register or memory byte changes (R33, R111, R112, R230). -/
def State.hypercall (s : State) (r : HcallReq) : State :=
  { s with run := r.answer.runState, diag := s.diag ++ r.lines }

end Sys2Proof.Machine
end

