-- ==== Sys2Proof/Machine/Control.lean ====
section
/-! DEFINITION. Control transfer (opcode 25; spec 46_control.md). Every other jump is a write of register 31 (R201). -/

namespace Sys2Proof.Machine

/-- `jnz`: condition `x[a]` and target `x[d]`, both read after the advance (R200); the target is absolute and unchecked here (R203). -/
def execJnz (d a : Reg) (s : State) : Result :=
  if isTrue (s.reg a) then .next (s.setPc (s.reg d)) else .next s

end Sys2Proof.Machine
end

