-- ==== Sys2Proof/Machine/Float.lean ====
section
/-! DEFINITION. Floating-point arithmetic and conversions (opcodes 9 to 14; spec 42_float.md). None raises a fault (R147). -/

namespace Sys2Proof.Machine

/-- `fadd` (R141). -/
def execFadd (d a b : Reg) (s : State) : Result := formR3 Binary64.add d a b s

/-- `fsub` (R142). -/
def execFsub (d a b : Reg) (s : State) : Result := formR3 Binary64.sub d a b s

/-- `fmul` (R143). -/
def execFmul (d a b : Reg) (s : State) : Result := formR3 Binary64.mul d a b s

/-- `fdiv` (R144). -/
def execFdiv (d a b : Reg) (s : State) : Result := formR3 Binary64.div d a b s

/-- `ftoi` (R145). -/
def execFtoi (d a : Reg) (s : State) : Result := formR2 Binary64.toUnsigned d a s

/-- `itof` (R146): self-contained, no fall-through into `and` (C3). -/
def execItof (d a : Reg) (s : State) : Result := formR2 Binary64.ofUnsigned d a s

end Sys2Proof.Machine
end

