-- ==== Sys2Proof/Machine/Integer.lean ====
section
/-! DEFINITION. Integer arithmetic (opcodes 2 to 8; spec 41_integer.md). All are format R3 (R84). -/

namespace Sys2Proof.Machine

/-- `sdiv` (R120). -/
def execSdiv (d a b : Reg) (s : State) : Result := formR3Fault Alu.sdiv d a b s

/-- `smod` (R121). -/
def execSmod (d a b : Reg) (s : State) : Result := formR3Fault Alu.smod d a b s

/-- `add` (R122). -/
def execAdd (d a b : Reg) (s : State) : Result := formR3 Alu.add d a b s

/-- `sub` (R123). -/
def execSub (d a b : Reg) (s : State) : Result := formR3 Alu.sub d a b s

/-- `mul` (R124). -/
def execMul (d a b : Reg) (s : State) : Result := formR3 Alu.mul d a b s

/-- `udiv` (R125). -/
def execUdiv (d a b : Reg) (s : State) : Result := formR3Fault Alu.udiv d a b s

/-- `umod` (R126). -/
def execUmod (d a b : Reg) (s : State) : Result := formR3Fault Alu.umod d a b s

end Sys2Proof.Machine
end

