-- ==== Sys2Proof/Machine/LoadStore.lean ====
section
/-! DEFINITION. Load and store (opcodes 21 and 22; spec 44_load_store.md): register indirect, no offset (R182). -/

namespace Sys2Proof.Machine

/-- `ld`: the address is `x[a]`, the destination `x[d]` (R180); a failed check leaves `x[d]` unwritten. -/
def execLd (d a : Reg) (s : State) : Result :=
  match s.busLoad (s.reg a) with
  | .ok v => .next (s.setReg d v)
  | .error cause => .next (s.raise cause)

/-- `st`: the address is `x[d]`, the value `x[a]`, the reverse of `ld` (R181); it writes no register. -/
def execSt (d a : Reg) (s : State) : Result :=
  match s.busStore (s.reg d) (s.reg a) with
  | .ok t => .next t
  | .error cause => .next (s.raise cause)

end Sys2Proof.Machine
end

