-- ==== Sys2Proof/Machine/Logic.lean ====
section
/-! DEFINITION. Bitwise logic and shifts (opcodes 15 to 20; spec 43_logic_shift.md). -/

namespace Sys2Proof.Machine

/-- `and` (R160). -/
def execAnd (d a b : Reg) (s : State) : Result := formR3 Alu.and d a b s

/-- `or` (R161). -/
def execOr (d a b : Reg) (s : State) : Result := formR3 Alu.or d a b s

/-- `xor` (R162). -/
def execXor (d a b : Reg) (s : State) : Result := formR3 Alu.xor d a b s

/-- `not` (R163). -/
def execNot (d a : Reg) (s : State) : Result := formR2 Alu.not d a s

/-- `shl` (R164, R166). -/
def execShl (d a b : Reg) (s : State) : Result := formR3 Alu.shl d a b s

/-- `shr` (R165, R166). -/
def execShr (d a b : Reg) (s : State) : Result := formR3 Alu.shr d a b s

end Sys2Proof.Machine
end

