-- ==== Sys2Proof/Machine/Move.lean ====
section
/-! DEFINITION. Load immediate and move (opcodes 23 and 24; spec 45_move.md). -/

namespace Sys2Proof.Machine

/-- `ldi`: bits 63:22 of `x[d]` become 0 (R190). -/
def execLdi (d : Reg) (imm : Nat) (s : State) : Result := formI d imm s

/-- `mov`: the pattern is copied unchanged (R191). -/
def execMov (d a : Reg) (s : State) : Result := formR2 (fun v => v) d a s

end Sys2Proof.Machine
end

