-- ==== Sys2Proof/Machine/Reserved.lean ====
section
/-! DEFINITION. The reserved opcodes 26 to 31: each raises ReservedOpcode whatever its other bits (R89, R223, D9). -/

namespace Sys2Proof.Machine

/-- Opcode 26 (R89). -/
def execReserved26 (s : State) : Result := .next (s.raise (.reservedOpcode 26))

/-- Opcode 27 (R89). -/
def execReserved27 (s : State) : Result := .next (s.raise (.reservedOpcode 27))

/-- Opcode 28 (R89). -/
def execReserved28 (s : State) : Result := .next (s.raise (.reservedOpcode 28))

/-- Opcode 29 (R89). -/
def execReserved29 (s : State) : Result := .next (s.raise (.reservedOpcode 29))

/-- Opcode 30 (R89). -/
def execReserved30 (s : State) : Result := .next (s.raise (.reservedOpcode 30))

/-- Opcode 31 (R89). -/
def execReserved31 (s : State) : Result := .next (s.raise (.reservedOpcode 31))

end Sys2Proof.Machine
end

