-- ==== Sys2Proof/Machine/System.lean ====
section
/-! DEFINITION. nop and sys (opcodes 0 and 1; spec 40_nop_sys.md). -/

namespace Sys2Proof.Machine

/-- `nop`: no effect (R110). -/
def execNop (s : State) : Result := .next s

/-- `sys`: sends `HcallReq(zext_64(imm), x[d])`; the advance stands in every outcome (R111, R112). -/
def execSys (d : Reg) (imm : Nat) (s : State) : Result :=
  .next (s.hypercall ⟨BitVec.ofNat 64 imm, s.reg d⟩)

end Sys2Proof.Machine
end

