-- ==== Sys2Proof/Machine/Dispatch.lean ====
section
/-! DEFINITION. The dispatch: one arm per instruction (R87, R88). The state is the one after the fetch and the advance (R91). -/

namespace Sys2Proof.Machine

def exec (i : Instr) (s : State) : Host.Outcome State Fault Refusal :=
  match i with
  | .nop => Sys2Proof.Machine.execNop s
  | .sys d imm => Sys2Proof.Machine.execSys d imm s
  | .sdiv d a b => Sys2Proof.Machine.execSdiv d a b s
  | .smod d a b => Sys2Proof.Machine.execSmod d a b s
  | .add d a b => Sys2Proof.Machine.execAdd d a b s
  | .sub d a b => Sys2Proof.Machine.execSub d a b s
  | .mul d a b => Sys2Proof.Machine.execMul d a b s
  | .udiv d a b => Sys2Proof.Machine.execUdiv d a b s
  | .umod d a b => Sys2Proof.Machine.execUmod d a b s
  | .fadd d a b => Sys2Proof.Machine.execFadd d a b s
  | .fsub d a b => Sys2Proof.Machine.execFsub d a b s
  | .fmul d a b => Sys2Proof.Machine.execFmul d a b s
  | .fdiv d a b => Sys2Proof.Machine.execFdiv d a b s
  | .ftoi d a => Sys2Proof.Machine.execFtoi d a s
  | .itof d a => Sys2Proof.Machine.execItof d a s
  | .and d a b => Sys2Proof.Machine.execAnd d a b s
  | .or d a b => Sys2Proof.Machine.execOr d a b s
  | .xor d a b => Sys2Proof.Machine.execXor d a b s
  | .not d a => Sys2Proof.Machine.execNot d a s
  | .shl d a b => Sys2Proof.Machine.execShl d a b s
  | .shr d a b => Sys2Proof.Machine.execShr d a b s
  | .ld d a => Sys2Proof.Machine.execLd d a s
  | .st d a => Sys2Proof.Machine.execSt d a s
  | .ldi d imm => Sys2Proof.Machine.execLdi d imm s
  | .mov d a => Sys2Proof.Machine.execMov d a s
  | .jnz d a => Sys2Proof.Machine.execJnz d a s
  | .reserved26 => Sys2Proof.Machine.execReserved26 s
  | .reserved27 => Sys2Proof.Machine.execReserved27 s
  | .reserved28 => Sys2Proof.Machine.execReserved28 s
  | .reserved29 => Sys2Proof.Machine.execReserved29 s
  | .reserved30 => Sys2Proof.Machine.execReserved30 s
  | .reserved31 => Sys2Proof.Machine.execReserved31 s

end Sys2Proof.Machine
end

