-- ==== Sys2Proof/Machine/Fetch.lean ====
section
/-! DEFINITION. The parts of a step around an instruction's effect: fetch, advance, and the end of the step (R56, R91);
and placing an instruction word where the next step fetches. -/

namespace Sys2Proof.Machine

/-- The fetch reads `x[31]` and memory as they stand at the start of the step (R56, R66). -/
def State.fetch (s : State) : Except FaultCause InsnWord := s.busFetch s.pc

/-- After the fetch and before the effect: `x[31] <- (p + 4) mod 2^64`, with the fetched word held for the step
(R24, R25, R30, R91). -/
def State.advance (s : State) (w : InsnWord) : State :=
  { s.setPc (BitVec.ofNat 64 (s.pc.toNat + Config.insnBytes)) with fetched := some w }

/-- A failed fetch: `MemoryFault(fetch, pc)`; nothing was decoded, no word is recorded, and there is no advance to
undo (R56, R227, R228). -/
def State.fetchFault (s : State) (cause : FaultCause) : State := s.takeFault cause s.pc none

/-- The end of a step: the fetched word is held during the step only (R30). -/
def State.endStep (s : State) : State := { s with fetched := none }

/-- The end of a step, on an outcome. -/
def retire : Result → Result
  | .next s => .next s.endStep
  | .fault r => .fault r
  | .refused r => .refused r

/-- Bytes of an instruction word of `nbits` bits, the bits above them zero (R54, R86). -/
def fetchBytes (nbits w : Nat) : List Byte := bytesOfWord (BitVec.ofNat 32 (w % 2 ^ nbits))

/-- A state whose next step fetches: `running`, with four bytes of memory at `x[31]`. A state of which that is true
already is not changed; otherwise `x[31]` becomes 0 and, for a memory of fewer than four bytes, its size 4. -/
def State.readyToFetch (s : State) : State :=
  if s.inRange s.pc Config.insnBytes then { s with run := .running }
  else if Config.insnBytes ≤ s.memSize.val then { s.setPc 0 with run := .running }
  else { s.setPc 0 with run := .running, memSize := 4 }

/-- The loader's part (R7, R267): the bytes of an instruction at the address the next step fetches from. -/
def State.placeInsn (s : State) (nbits w : Nat) : State :=
  { s with mem := s.mem.place s.pc.toNat (fetchBytes nbits w) }

end Sys2Proof.Machine
end

