-- ==== Sys2Proof/Machine/Step.lean ====
section
/-! DEFINITION. One step of the core (R91, R92, R94), and the state whose next step runs a given instruction. -/

namespace Sys2Proof.Machine

/-- One step: a core that is not `running` takes none (R94). Otherwise fetch, decode, advance, effect (R91); a failed
fetch raises its fault and nothing is decoded (R228). -/
def step (s : State) : Host.Outcome State Fault Refusal :=
  match s.run with
  | .running =>
    match s.fetch with
    | .ok w => retire (exec (decode w) (s.advance w))
    | .error cause => .next (s.fetchFault cause)
  | .halted _ => .fault .notRunning
  | .aborted _ => .fault .notRunning
  | .faulted _ => .fault .notRunning

/-- `s` with the instruction of `nbits` bits `w` stored where `step` fetches (log 4). -/
def State.withFetchWord (s : State) (nbits w : Nat) : State := s.readyToFetch.placeInsn nbits w

end Sys2Proof.Machine
end

