-- ==== Sys2Proof/Machine/Assembler.lean ====
section
/-! DEFINITION. The spec's assembler syntax (R16, R95) and pseudo-instructions (R96) as a function from one line of
text to the instruction word, `none` where the line is refused. It is no part of the core (D20, D21): nothing in
`step` uses it. Its white space and its number and field spellings are fixed in log 15. -/

namespace Sys2Proof.Machine.Asm

/-- The mnemonics with their opcodes (R88). A reserved opcode has none: `.word` is its only spelling (R95). -/
def mnemonics : List (List Char × Fin 32) :=
  [("nop".toList, 0), ("sys".toList, 1), ("sdiv".toList, 2), ("smod".toList, 3), ("add".toList, 4), ("sub".toList, 5),
    ("mul".toList, 6), ("udiv".toList, 7), ("umod".toList, 8), ("fadd".toList, 9), ("fsub".toList, 10)] ++
  [("fmul".toList, 11), ("fdiv".toList, 12), ("ftoi".toList, 13), ("itof".toList, 14), ("and".toList, 15),
    ("or".toList, 16), ("xor".toList, 17), ("not".toList, 18), ("shl".toList, 19), ("shr".toList, 20)] ++
  [("ld".toList, 21), ("st".toList, 22), ("ldi".toList, 23), ("mov".toList, 24), ("jnz".toList, 25)]

def isBlank (c : Char) : Bool := c = ' ' ∨ c = '\t'

def trim (l : List Char) : List Char := ((l.dropWhile isBlank).reverse.dropWhile isBlank).reverse

/-- The comma-separated parts of a text. -/
def parts : List Char → List (List Char)
  | [] => [[]]
  | c :: cs =>
    match parts cs with
    | [] => [[c]]
    | p :: ps => if c = ',' then [] :: p :: ps else (c :: p) :: ps

/-- The operands of a line: none for a blank text. -/
def operands (l : List Char) : List (List Char) := if trim l = [] then [] else (parts l).map trim

/-- `r0` to `r31` (R16). -/
def regName (i : Reg) : List Char := 'r' :: decimalDigits 2 i.val

/-- A register name, or `pc` for register 31 (R16, R95). -/
def parseReg (l : List Char) : Option Reg :=
  if l = "pc".toList then some pcReg else (List.finRange 32).find? (fun i => l = regName i)

/-- The value of a digit character; letters of either case from 10 on. -/
def digitValue (c : Char) : Nat :=
  if '0' ≤ c ∧ c ≤ '9' then c.toNat - 48
  else if 'a' ≤ c ∧ c ≤ 'f' then c.toNat - 87
  else if 'A' ≤ c ∧ c ≤ 'F' then c.toNat - 55
  else 16

/-- Digits in the given base, at least one. -/
def parseDigits (base : Nat) (l : List Char) : Option Nat :=
  if l ≠ [] ∧ l.all (fun c => digitValue c < base) then some (l.foldl (fun n c => n * base + digitValue c) 0) else none

/-- A decimal or `0x` hexadecimal number (R95). -/
def parseNumber : List Char → Option Nat
  | '0' :: 'x' :: hex => parseDigits 16 hex
  | l => parseDigits 10 l

/-- An immediate of 0 to 4194303; any other is refused (R95). -/
def parseImm (l : List Char) : Option Nat := (parseNumber l).filter immInRange

/-- The operands in order: none for `N`, `rd, ra, rb` for `R3`, `rd, ra` for `R2`, `rd, imm` for `I` (R95),
each of them given (log 15). -/
def positional (op : Fin 32) (ops : List (List Char)) : Option InsnWord :=
  match formatOf op, ops with
  | .n, [] => some (encodeN op)
  | .r3, [d, a, b] => do pure (encodeR3 op (← parseReg d) (← parseReg a) (← parseReg b))
  | .r2, [d, a] => do pure (encodeR2 op (← parseReg d) (← parseReg a))
  | .i, [d, imm] => do pure (encodeI op (← parseReg d) (← parseImm imm))
  | _, _ => none

/-- The names of the fields a format reads. -/
def fieldNames : Format → List (List Char)
  | .n => []
  | .r3 => ["d".toList, "a".toList, "b".toList]
  | .r2 => ["d".toList, "a".toList]
  | .i => ["d".toList, "imm".toList]

/-- `name=value` cut at the first `=`. -/
def cutField (l : List Char) : Option (List Char × List Char) :=
  match l.dropWhile (· ≠ '=') with
  | _ :: value => some (l.takeWhile (· ≠ '='), value)
  | [] => none

/-- The value given to a field, or 0 when it is omitted (R95). -/
def regOf (fields : List (List Char × List Char)) (name : List Char) : Option Reg :=
  match fields.lookup name with
  | some v => parseReg v
  | none => some 0

/-- A first operand without a name, before named ones, is `d`, as the source writes `ldi r0, imm=5` (R95, log 15). -/
def nameFirst : List (List Char) → List (List Char)
  | x :: y :: rest => if x.contains '=' then x :: y :: rest else ("d=".toList ++ x) :: y :: rest
  | ops => ops

/-- The field-named form: `d=rX`, `a=rY`, `b=rZ`, `imm=N` in any order (R95). DESIGN CHOICE (log 15), safe: a
field the format does not read, or one given twice, is refused; and so is a mnemonic alone (`add`), since R95 encodes an
omitted field as 0 and does not say whether all fields may be omitted. -/
def named (op : Fin 32) (ops : List (List Char)) : Option InsnWord := do
  let fields ← (nameFirst ops).mapM cutField
  let names := fields.map (·.1)
  if names ≠ [] ∧ names.all (fun n => (fieldNames (formatOf op)).contains n) ∧ names.Nodup then
    let d ← regOf fields "d".toList
    let a ← regOf fields "a".toList
    let b ← regOf fields "b".toList
    match formatOf op with
    | .n => none
    | .r3 => some (encodeR3 op d a b)
    | .r2 => some (encodeR2 op d a)
    | .i =>
      match fields.lookup "imm".toList with
      | some v => (parseImm v).map (encodeI op d)
      | none => some (encodeI op d 0)
  else none

/-- The pseudo-instructions (R96). -/
def parsePseudo (name : List Char) (ops : List (List Char)) : Option Pseudo :=
  match ops with
  | [] => if name = "halt".toList then some .halt else if name = "fail".toList then some .fail else none
  | [x] =>
    if name = "j".toList then (parseReg x).map .j
    else if name = "jmp".toList then (parseImm x).map .jmp
    else if name = "rdpc".toList then (parseReg x).map .rdpc
    else if name = "debug".toList then (parseReg x).map .debug
    else none
  | _ => none

/-- `.word <32-bit value>` (R95). -/
def parseRaw (ops : List (List Char)) : Option InsnWord :=
  match ops with
  | [x] => ((parseNumber x).filter (· < 2 ^ 32)).map (BitVec.ofNat 32)
  | _ => none

/-- The word of one line of assembly. -/
def assemble (line : List Char) : Option InsnWord :=
  let text := trim line
  let name := text.takeWhile (fun c => !isBlank c)
  let ops := operands (text.dropWhile (fun c => !isBlank c))
  if name = ".word".toList then parseRaw ops
  else
    match mnemonics.lookup name with
    | some op => (positional op ops).or (named op ops)
    | none => (parsePseudo name ops).map (fun p => encode p.expand)

end Sys2Proof.Machine.Asm
end

