-- ==== Sys2Proof/Machine/Construct.lean ====
section
/-! DEFINITION. Construction, the only reset (R260 to R266), with the four parameters of R9. -/

namespace Sys2Proof.Machine

/-- The construction parameters (R9): the memory size, the initial contents of memory, the initial program counter
and the initial values of registers 0 to 30. `INIT_MEM` assigns a byte to every address below `MEM_SIZE`; it is
given as a memory, whose unlisted addresses read as `Config.unlistedByte`. -/
structure Params where
  memSize : Fin (2 ^ 64)
  initMem : Memory
  initPc : Word
  initGpr : Vector Word 31
  deriving DecidableEq, Repr

/-- Which construction check failed (R220, R225, R261). -/
inductive ConstructError where
  | memorySize
  | initialPc
  deriving DecidableEq, Repr

/-- Both are InvalidConstruction (R220). -/
def ConstructError.errorKind : ConstructError → ErrorKind
  | .memorySize => .invalidConstruction
  | .initialPc => .invalidConstruction

/-- `INIT_MEM` is in canonical form and within the memory: it gives a byte to addresses 0 to `MEM_SIZE - 1` only. -/
abbrev Params.legalMem (p : Params) : Prop := p.initMem.wf ∧ ∀ c ∈ p.initMem, c.1 < p.memSize.val

/-- The core a successful construction makes (R262 to R266): `x[0]` to `x[30]` hold `INIT_GPR`, `x[31]` holds
`INIT_PC`, memory holds `INIT_MEM`, the run state is `running`, and nothing was emitted. -/
def Params.core (p : Params) : State where
  regs := p.initGpr.push p.initPc
  mem := p.initMem
  memSize := p.memSize
  run := .running
  fetched := none
  diag := []

/-- Construction: the size check first, then `INIT_PC < MEM_SIZE` and nothing more (R225, R261, C7). -/
def State.construct (p : Params) : Except ConstructError State :=
  if p.memSize.val = 0 then .error .memorySize
  else if p.memSize.val ≤ p.initPc.toNat then .error .initialPc
  else .ok p.core

end Sys2Proof.Machine
end

