-- ==== Sys2Proof/Safety.lean ====
section
/-! DEFINITION. What holds of a core between steps, which runs end well, and the states a run reaches. -/

namespace Sys2Proof.Machine

/-- Bytes of an access (R52). -/
def AccessKind.bytes : AccessKind → Nat
  | .fetch => Config.insnBytes
  | .load => Config.dataBytes
  | .store => Config.dataBytes

/-- The opcodes that can raise a cause whose word was fetched (R220, R222). -/
def FaultCause.opcodes : FaultCause → List (Fin 32)
  | .memoryFault .fetch _ => []
  | .memoryFault .load _ => [21]
  | .memoryFault .store _ => [22]
  | .arithmeticFault .divideByZero => [2, 3, 7, 8]
  | .arithmeticFault .overflow => [2, 3]
  | .reservedOpcode op => [op].filter (fun o => 26 ≤ o.val)

/-- A memory fault names an access that fails the bounds check (R55, R221). -/
def FaultCause.outOfRange (s : State) : FaultCause → Prop
  | .memoryFault kind addr => s.inRange addr kind.bytes = false
  | .arithmeticFault _ => True
  | .reservedOpcode _ => True

/-- A record that fits the state it ended in: it names the program counter, its word is the one memory holds there
and of an opcode that raises the cause, or, for a fetch fault, there is no word and the address is `pc` (R226, R227). -/
def FaultRecord.legal (s : State) (r : FaultRecord) : Prop :=
  r.pc = s.pc ∧ r.cause.outOfRange s ∧
    match r.word with
    | none => r.cause = .memoryFault .fetch r.pc
    | some w => s.busFetch r.pc = .ok w ∧ opField w ∈ r.cause.opcodes

/-- The run states a core can be in (R29, R230). -/
def State.runLegal (s : State) : Prop :=
  match s.run with
  | .running => True
  | .halted _ => True
  | .aborted code => code.toNat < 2 ^ 22 ∧ code ≠ 1 ∧ code ≠ 2 ∧ code ≠ 3
  | .faulted r => r.legal s

/-- The invariant of a core between steps. -/
structure State.Inv (s : State) : Prop where
  /-- Memory is in canonical form. -/
  memWf : s.mem.wf
  /-- No byte outside memory is listed (R50, R61). -/
  memInside : ∀ c ∈ s.mem, c.1 < s.memSize.val
  /-- `1 <= MEM_SIZE` (R9). -/
  memSizePos : 0 < s.memSize.val
  /-- No step is in progress (R30). -/
  betweenSteps : s.fetched = none
  /-- The run state is one a run can enter. -/
  runLegal : s.runLegal

/-- A run in this state has not ended in a fault or an abort (R234). -/
def State.safe (s : State) : Bool :=
  match s.run with
  | .running => true
  | .halted _ => true
  | .aborted _ => false
  | .faulted _ => false

/-- `t` is reached from `s` by some number of steps. The host may stop a run after any step (R236), so a claim about
every stopping point is a claim about every reached state (log 9). -/
inductive Reaches (s : State) : State → Prop where
  | refl : Reaches s s
  | tail {t u : State} : Reaches s t → step t = .next u → Reaches s u

end Sys2Proof.Machine
end

