-- ==== Sys2Proof/Certificates/Slice0/Obligations.lean ====
section
/-! DEFINITION. The statements about this model, `Obligations.<Name>`, and the vocabulary they are written in
(`Claims`), which reads words and registers from the spec's own definitions, and binary64 patterns as log 12 takes
them from IEEE-754, and not through the model's helpers. -/

open Sys2Proof Sys2Proof.Machine

namespace Sys2Proof.Claims

/-! ### Words and encodings -/

/-- `w[hi:lo]` read as an unsigned number (R10). -/
def bits (w : InsnWord) (hi lo : Nat) : Nat := w.toNat / 2 ^ lo % 2 ^ (hi - lo + 1)

/-- The register a field names (R81). -/
def regAt (w : InsnWord) (hi lo : Nat) : Reg := Fin.ofNat 32 (bits w hi lo)

/-- Every word of opcode `op` decodes to `f` of its fields `d`, `a`, `b` (R81, R84). -/
def EncodesR3 (op : Nat) (f : Reg → Reg → Reg → Instr) : Prop :=
  ∀ (w : InsnWord) (d a b : Reg), bits w 31 27 = op → d.val = bits w 26 22 → a.val = bits w 21 17 →
    b.val = bits w 16 12 → decode w = f d a b

/-- Every word of opcode `op` decodes to `f` of its fields `d`, `a`. -/
def EncodesR2 (op : Nat) (f : Reg → Reg → Instr) : Prop :=
  ∀ (w : InsnWord) (d a : Reg), bits w 31 27 = op → d.val = bits w 26 22 → a.val = bits w 21 17 → decode w = f d a

/-- Every word of opcode `op` decodes to `f` of its fields `d`, `imm`. -/
def EncodesI (op : Nat) (f : Reg → Nat → Instr) : Prop :=
  ∀ (w : InsnWord) (d : Reg), bits w 31 27 = op → d.val = bits w 26 22 → decode w = f d (bits w 21 0)

/-- Every word of opcode `op` decodes to `i`. -/
def EncodesN (op : Nat) (i : Instr) : Prop := ∀ w : InsnWord, bits w 31 27 = op → decode w = i

/-- The opcodes of each format (R84). -/
def opsN : List Nat := [0, 26, 27, 28, 29, 30, 31]
def opsI : List Nat := [1, 23]
def opsR2 : List Nat := [13, 14, 18, 21, 22, 24, 25]

/-- The bits an instruction of the word's opcode reads (R82, R84). -/
def readMask (w : InsnWord) : InsnWord :=
  if bits w 31 27 ∈ opsN then 0xF8000000
  else if bits w 31 27 ∈ opsI then 0xFFFFFFFF
  else if bits w 31 27 ∈ opsR2 then 0xFFFE0000
  else 0xFFFFF000

/-! ### Outcomes and frames -/

/-- The instruction completes: `exec` answers a next state, and that state has the property. -/
def Completes (i : Instr) (s : State) (P : State → Prop) : Prop := ∃ t, exec i s = .next t ∧ P t

/-- Everything but the registers and memory is unchanged. -/
def SameRest (s t : State) : Prop :=
  t.memSize = s.memSize ∧ t.run = s.run ∧ t.fetched = s.fetched ∧ t.diag = s.diag

/-- Every byte of memory reads as before. -/
def SameBytes (s t : State) : Prop := ∀ x, t.byteAt x = s.byteAt x

/-- Nothing changed but register `d`. -/
def OnlyReg (d : Reg) (s t : State) : Prop :=
  (∀ r, r ≠ d → t.reg r = s.reg r) ∧ SameBytes s t ∧ SameRest s t

/-- The instruction raised `cause` (R226, R227): the run state holds the record, `x[31]`, which held the advanced
value, is back at the instruction's own address, and nothing else changed. -/
def Raises (cause : FaultCause) (s t : State) : Prop :=
  t.run = .faulted ⟨cause, s.pc - 4, s.fetched⟩ ∧ t.pc = s.pc - 4 ∧ (∀ r, r ≠ 31 → t.reg r = s.reg r) ∧
    SameBytes s t ∧ t.memSize = s.memSize ∧ t.fetched = s.fetched ∧ t.diag = s.diag

/-- `w` is the instruction word at the program counter, four bytes inside memory, least significant first (R54, R56). -/
def WordAt (s : State) (w : InsnWord) : Prop :=
  s.pc.toNat + 4 ≤ s.memSize.val ∧
    ∀ k, k < 4 → (s.byteAt (s.pc.toNat + k)).toNat = w.toNat / 256 ^ k % 256

/-- What the instruction of a step reads from register `r`: `x[31]` holds the advanced value (R24, R91). -/
def afterAdvance (s : State) (r : Reg) : Word := if r = 31 then s.pc + 4 else s.reg r

/-- The fault the rules give to the word `w` at the program counter, if any (R55, R89, R120, R121, R125, R126, R180,
R181, R228). -/
def expectedFault (s : State) (w : InsnWord) : Option FaultCause :=
  let op := bits w 31 27
  let xd := afterAdvance s (regAt w 26 22)
  let xa := afterAdvance s (regAt w 21 17)
  let xb := afterAdvance s (regAt w 16 12)
  if 26 ≤ op then some (.reservedOpcode (Fin.ofNat 32 op))
  else if op ∈ [2, 3, 7, 8] ∧ xb = 0 then some (.arithmeticFault .divideByZero)
  else if op ∈ [2, 3] ∧ xa = 0x8000000000000000 ∧ xb = 0xFFFFFFFFFFFFFFFF then some (.arithmeticFault .overflow)
  else if op = 21 ∧ s.memSize.val < xa.toNat + 8 then some (.memoryFault .load xa)
  else if op = 22 ∧ s.memSize.val < xd.toNat + 8 then some (.memoryFault .store xd)
  else none

/-- The instruction constructors with a destination register (R201), by format. -/
def destR3 : List (Reg → Reg → Reg → Instr) :=
  [.sdiv, .smod, .add, .sub, .mul, .udiv, .umod, .fadd, .fsub, .fmul, .fdiv, .and, .or, .xor, .shl, .shr]
def destR2 : List (Reg → Reg → Instr) := [.ftoi, .itof, .not, .ld, .mov]

/-! ### Diagnostic lines -/

/-- `c` is the decimal digit of value `n`. -/
def IsDigit (c : Char) (n : Nat) : Prop := n < 10 ∧ c.toNat = '0'.toNat + n

/-- The number written by a list of decimal digit characters. -/
def digitsValue (l : List Char) : Nat := l.foldl (fun n c => 10 * n + (c.toNat - '0'.toNat)) 0

/-- `l` is the number `n` in decimal with no leading zeros (0 is `0`). -/
def IsDecimal (n : Nat) (l : List Char) : Prop :=
  l ≠ [] ∧ (∀ c ∈ l, ∃ k, IsDigit c k) ∧ (l.head? = some '0' → l = ['0']) ∧ digitsValue l = n

/-- `line` is the diagnostic line of `v` (R233): `debug: `, the signed decimal with a `-` only when negative, LF. -/
def IsDiagLine (v : Word) (line : List Char) : Prop :=
  ∃ digits, IsDecimal v.toInt.natAbs digits ∧
    line = "debug: ".toList ++ (if v.toInt < 0 then ['-'] else []) ++ digits ++ [Char.ofNat 10]

/-! ### Binary64 patterns (R14) and rounding (R147)

R14 gives the places of the three fields. What they stand for (`IsNaN` to `value`) and where rounding overflows
(`RoundsTo`) are the IEEE-754 standard's, which the rules name: log 12, PRESUMED. -/

def signOf (v : Word) : Bool := v.getLsbD 63
def expOf (v : Word) : Nat := v.toNat / 2 ^ 52 % 2 ^ 11
def fracOf (v : Word) : Nat := v.toNat % 2 ^ 52

def IsNaN (v : Word) : Prop := expOf v = 2047 ∧ fracOf v ≠ 0
def IsInf (v : Word) : Prop := expOf v = 2047 ∧ fracOf v = 0
def IsFin (v : Word) : Prop := expOf v ≠ 2047
def IsZero (v : Word) : Prop := expOf v = 0 ∧ fracOf v = 0

/-- The value of a finite pattern: sign, fraction and exponent as IEEE-754 binary64 defines them (log 12). -/
def value (v : Word) : ℚ :=
  (if signOf v then -1 else 1) *
    (if expOf v = 0 then (fracOf v : ℚ) * 2 ^ (-1074 : ℤ)
     else ((2 ^ 52 + fracOf v : ℕ) : ℚ) * 2 ^ ((expOf v : ℤ) - 1075))

/-- `v` is `r` rounded to nearest, ties to even (R147, D13): an infinity from half a unit above the largest finite
value on (log 12), otherwise a finite value at least as near as every other, and the even one of two equally near. -/
def RoundsTo (r : ℚ) (v : Word) : Prop :=
  if (2 ^ 1024 - 2 ^ 970 : ℚ) ≤ |r| then IsInf v
  else IsFin v ∧ ∀ w, IsFin w → |value v - r| ≤ |value w - r| ∧
    (|value w - r| = |value v - r| → value w ≠ value v → v.toNat % 2 = 0)

/-- The invalid operations of R148 without a NaN operand, by opcode. -/
def Invalid (op : Nat) (p q : Word) : Prop :=
  (op = 9 ∧ IsInf p ∧ IsInf q ∧ signOf p ≠ signOf q) ∨ (op = 10 ∧ IsInf p ∧ IsInf q ∧ signOf p = signOf q) ∨
    (op = 11 ∧ (IsZero p ∧ IsInf q ∨ IsInf p ∧ IsZero q)) ∨
    (op = 12 ∧ (IsZero p ∧ IsZero q ∨ IsInf p ∧ IsInf q))

/-- The NaN rule of R148 for the result `v` of opcode `op`. -/
def NaNRule (op : Nat) (p q v : Word) : Prop :=
  (IsNaN p → v = p ||| BitVec.ofNat 64 (2 ^ 51)) ∧
    (¬ IsNaN p → IsNaN q → v = q ||| BitVec.ofNat 64 (2 ^ 51)) ∧
    (¬ IsNaN p → ¬ IsNaN q → Invalid op p q → v = 0xFFF8000000000000) ∧
    (¬ IsNaN p → ¬ IsNaN q → ¬ Invalid op p q → ¬ IsNaN v)

end Sys2Proof.Claims

open Sys2Proof.Claims

/-- For every well-formed instruction, with every operand at every value its encoding admits, decode of encode is
the instruction. (R81, R85) -/
def Obligations.DecodeOfEncodeIsIdentity : Prop :=
  ∀ i : Instr, i.wellFormed = true → decode (encode i) = i

/-- For every 32-bit word, encode of decode is the word with the bits its format ignores cleared and every other bit
kept. (R82, R84, R85) -/
def Obligations.EncodeOfDecodeKeepsReadBits : Prop :=
  ∀ w : InsnWord, encode (decode w) = w &&& readMask w

/-- Two words that agree on the bits the opcode of the first reads decode to the same instruction, so they behave
the same; and two words of opcode 1 or 23 that decode to the same instruction are equal. (R82) -/
def Obligations.IgnoredBitsDoNotMatter : Prop :=
  (∀ w v : InsnWord, (w ^^^ v) &&& readMask w = 0 → decode w = decode v) ∧
    (∀ w v : InsnWord, bits w 31 27 ∈ opsI → decode w = decode v → w = v)

/-- For every 32-bit word, the decoded instruction is well formed (its immediate is in 0 to 2^22 - 1) and has the
opcode in bits 31:27: no opcode falls through to another instruction. (R80, R83, R87, R88) -/
def Obligations.DecoderIsTotalOnTheOpcodeMap : Prop :=
  ∀ w : InsnWord, (decode w).wellFormed = true ∧ (decode w).opcode.val = bits w 31 27

/-- One word of each family, as the spec writes it, decodes to its instruction, and the bytes 2A 00 40 B8 are ldi
r1, 42. (R57, R88, 95_test_vectors.md) -/
def Obligations.WordsOfTheSpecDecode : Prop :=
  decode 0x00000000 = .nop ∧ decode 0x07FFFFFF = .nop ∧ decode 0x08C00003 = .sys 3 3 ∧
    decode 0x10C22000 = .sdiv 3 1 2 ∧ decode 0x20FE0000 = .add 3 31 0 ∧ decode 0x60C22000 = .fdiv 3 1 2 ∧
    decode 0x68C20000 = .ftoi 3 1 ∧ decode 0xA0C22000 = .shr 3 1 2 ∧ decode 0xA8C40000 = .ld 3 2 ∧
    decode 0xB0820000 = .st 2 1 ∧ decode 0xB8FFFFFF = .ldi 3 0x3FFFFF ∧ decode 0xC7CA0000 = .mov 31 5 ∧
    decode 0xC9020000 = .jnz 4 1 ∧ decode 0xD0000000 = .reserved26 ∧ decode 0xFFFFFFFF = .reserved31 ∧
    decodeBytes [0x2A, 0x00, 0x40, 0xB8] = .ok (.ldi 1 42, [])

/-- A byte string that begins with the four bytes of a word, least significant first, decodes to that word's
instruction and leaves the rest; a string of fewer than four bytes is refused as truncated; and the decoder on a
32-bit table word is the decoder on that word. The refusal of a short string and the table-word decoder are the
model's own choice (log 20): the rules take a whole word. (R54, R80, R86) -/
def Obligations.BytesDecodeLittleEndian : Prop :=
  (∀ (w : InsnWord) (rest : List Byte),
      decodeBytes ((List.range 4).map (fun k => BitVec.ofNat 8 (w.toNat / 256 ^ k)) ++ rest) = .ok (decode w, rest)) ∧
    (∀ bs : List Byte, bs.length < 4 → decodeBytes bs = .error .truncated) ∧
    (∀ w : InsnWord, decodeTableWord 32 w.toNat = some (decode w))

/-- When the core is running and w is the word at the program counter, step is exec of decode w at the state whose
x[31] is pc + 4 and which holds w for the step; at the end of the step the held word is dropped. (R24, R30, R56,
R91, 30_encoding.md section 4) -/
def Obligations.StepRunsTheDecodedInstruction : Prop :=
  ∀ (s : State) (w : InsnWord), s.run = .running → WordAt s w →
    step s = match exec (decode w) { s with regs := s.regs.set 31 (s.pc + 4), fetched := some w } with
      | .next t => .next { t with fetched := none }
      | .fault f => .fault f
      | .refused r => .refused r

/-- When pc + 4 <= MEM_SIZE the fetch gives the word M[pc] | M[pc+1] << 8 | M[pc+2] << 16 | M[pc+3] << 24; when pc +
4 > MEM_SIZE a running core's step leaves registers, memory and diagnostics as they are and enters Faulted with
MemoryFault(fetch, pc) at pc and no word. (R56) -/
def Obligations.FetchChecksFourBytesAtThePc : Prop :=
  ∀ s : State,
    (s.pc.toNat + 4 ≤ s.memSize.val → ∃ w, s.fetch = .ok w ∧
      w.toNat = (s.byteAt s.pc.toNat).toNat + 2 ^ 8 * (s.byteAt (s.pc.toNat + 1)).toNat +
        2 ^ 16 * (s.byteAt (s.pc.toNat + 2)).toNat + 2 ^ 24 * (s.byteAt (s.pc.toNat + 3)).toNat) ∧
    (s.memSize.val < s.pc.toNat + 4 → s.run = .running → ∃ t, step s = .next t ∧
      t.run = .faulted ⟨.memoryFault .fetch s.pc, s.pc, none⟩ ∧ (∀ r, t.reg r = s.reg r) ∧ SameBytes s t ∧
      t.memSize = s.memSize ∧ t.diag = s.diag)

/-- From every state that meets the invariant (memory canonical and inside MEM_SIZE, MEM_SIZE at least 1, no step in
progress, and a run state that fits the state: an abort code that is unknown, or a fault record that names the
pc, the word memory holds there and a cause that word can raise), a step that gives a next state gives one that
meets it. The canonical form and the word held in a step are the model's choice (logs 11 and 14). (R29, R30,
R50, R226, R227, R230) -/
def Obligations.StepKeepsTheInvariant : Prop :=
  ∀ s t : State, s.Inv → step s = .next t → t.Inv

/-- State.reset meets the invariant of a core between steps. Its memory size, memory contents and register values
are the model's choices of logs 1 to 3. (R9, R264, R266) -/
def Obligations.ResetMeetsTheInvariant : Prop :=
  State.reset.Inv

/-- For all construction parameters whose initial memory is canonical and inside MEM_SIZE, a core that construction
makes meets the invariant. The canonical form is the model's choice (log 14). (R9, R261, R266) -/
def Obligations.ConstructionMeetsTheInvariant : Prop :=
  ∀ (p : Params) (s : State), p.legalMem → State.construct p = .ok s → s.Inv

/-- In every run state but Running, step gives no next state (it stops as notRunning), and the only state reached is
the state itself. That the stop is the fault notRunning is the model's form (log 6). (R29, R94, R245) -/
def Obligations.TerminalStatesAreFinal : Prop :=
  ∀ s : State, s.run ≠ .running → step s = .fault .notRunning ∧ ∀ t, Reaches s t → t = s

/-- When a step of a running core ends in Faulted(record), every register (x[31] too, which holds the address of the
faulting instruction), every byte, MEM_SIZE and the diagnostics are those before the step, the record's pc is
that address, it has no word exactly when the fetch failed, and a word it has is the word memory holds there.
(R226) -/
def Obligations.FaultsArePrecise : Prop :=
  ∀ (s t : State) (r : FaultRecord), s.run = .running → step s = .next t → t.run = .faulted r →
    (∀ i, t.reg i = s.reg i) ∧ SameBytes s t ∧ t.memSize = s.memSize ∧ t.diag = s.diag ∧ r.pc = s.pc ∧
    (r.word = none ↔ s.memSize.val < s.pc.toNat + 4) ∧ (∀ w, r.word = some w → WordAt s w)

/-- For every running state and the word at its program counter, the step gives a next state; it is Faulted with the
cause that the rules give to the word and the operands after the advance, the pc and the word, and with the
numeric code of its kind, when there is one, and it is not Faulted when there is none. (R55, R89, R120, R121,
R125, R126, R180, R181, R220, R222, R223, R228) -/
def Obligations.StepFaultsExactlyWhenTheRulesSay : Prop :=
  ∀ (s : State) (w : InsnWord), s.run = .running → WordAt s w → ∃ t, step s = .next t ∧
    match expectedFault s w with
    | some c => t.run = .faulted ⟨c, s.pc, some w⟩ ∧ t.run.errorKind.map ErrorKind.code =
        some (if bits w 31 27 = 21 ∨ bits w 31 27 = 22 then 1 else if 26 ≤ bits w 31 27 then 3 else 2)
    | none => ∀ r, t.run ≠ .faulted r

/-- After a step of a running core on the word w: Halted(0) exactly when w is sys with code 1, Halted(1) exactly
when its code is 2, Aborted(c) exactly when it is sys with code c and c is not 1, 2 or 3. (R29, R224, R230,
R231, R232) -/
def Obligations.RunStateEnteredOnlyBySys : Prop :=
  ∀ (s t : State) (w : InsnWord), s.run = .running → WordAt s w → step s = .next t →
    (t.run = .halted 0 ↔ bits w 31 27 = 1 ∧ bits w 21 0 = 1) ∧
    (t.run = .halted 1 ↔ bits w 31 27 = 1 ∧ bits w 21 0 = 2) ∧
    (∀ c, t.run = .aborted c ↔ bits w 31 27 = 1 ∧ c.toNat = bits w 21 0 ∧ c ≠ 1 ∧ c ≠ 2 ∧ c ≠ 3)

/-- When a step changes the byte at address y, the word at the program counter is an st, its eight bytes at x[d]
(read after the advance) lie in memory, and y is one of them. (R52, R64, R181) -/
def Obligations.MemoryChangesOnlyByStore : Prop :=
  ∀ (s t : State) (y : Nat), step s = .next t → t.byteAt y ≠ s.byteAt y →
    ∃ w, WordAt s w ∧ bits w 31 27 = 22 ∧ (afterAdvance s (regAt w 26 22)).toNat + 8 ≤ s.memSize.val ∧
      (afterAdvance s (regAt w 26 22)).toNat ≤ y ∧ y < (afterAdvance s (regAt w 26 22)).toNat + 8

/-- A step of a running core on the word w appends the one diagnostic line of x[d] (read after the advance) when w
is sys with code 3, and leaves the lines as they are otherwise. That State holds the lines is the model's choice
(log 8). (R230, R233, R234) -/
def Obligations.OnlyHypercall3EmitsALine : Prop :=
  ∀ (s t : State) (w : InsnWord), s.run = .running → WordAt s w → step s = .next t →
    (bits w 31 27 = 1 ∧ bits w 21 0 = 3 →
      ∃ line, IsDiagLine (afterAdvance s (regAt w 26 22)) line ∧ t.diag = s.diag ++ [line]) ∧
    (¬ (bits w 31 27 = 1 ∧ bits w 21 0 = 3) → t.diag = s.diag)

/-- Every state reached from a state by steps has its memory size, so every bounds check of a run uses one MEM_SIZE.
(R37, R50) -/
def Obligations.MemorySizeNeverChanges : Prop :=
  ∀ s t : State, Reaches s t → t.memSize = s.memSize

/-- After a step on the word w, every register other than 31 and the one named by bits 26:22 holds its value; when
the opcode is nop, sys, st, jnz or reserved, so does that one. (R35, R201) -/
def Obligations.OnlyTheDestinationIsWritten : Prop :=
  ∀ (s t : State) (w : InsnWord) (r : Reg), WordAt s w → step s = .next t → r ≠ 31 →
    (r ≠ regAt w 26 22 ∨ bits w 31 27 ∈ [0, 1, 22, 25] ∨ 26 ≤ bits w 31 27) → t.reg r = s.reg r

/-- When a step of a running core does not fault and its word is nop, sys or st, or has a destination other than 31,
or is a jnz whose condition is 0, the program counter after it is its own address plus 4 as a mathematical
integer. (R24, R25, R201, R205) -/
def Obligations.SequentialFlow : Prop :=
  ∀ (s t : State) (w : InsnWord), s.run = .running → WordAt s w → step s = .next t → (∀ r, t.run ≠ .faulted r) →
    (bits w 31 27 ∈ [0, 1, 22] ∨ (bits w 31 27 ≠ 25 ∧ bits w 26 22 ≠ 31) ∨
      (bits w 31 27 = 25 ∧ afterAdvance s (regAt w 21 17) = 0)) →
    t.pc.toNat = s.pc.toNat + 4

/-- For every instruction with a destination: where it completes with destination d, it completes with destination
31 too, the program counter is then exactly the value that d got, with no offset added, and every other register
is unchanged; and nop, sys and st leave register 31 at the advanced value. (R201) -/
def Obligations.WritingRegister31Jumps : Prop :=
  (∀ f ∈ destR3, ∀ (d a b : Reg) (s t : State), s.run = .running → exec (f d a b) s = .next t → t.run = .running →
      ∃ u, exec (f 31 a b) s = .next u ∧ u.pc = t.reg d ∧ ∀ r, r ≠ 31 → u.reg r = s.reg r) ∧
    (∀ f ∈ destR2, ∀ (d a : Reg) (s t : State), s.run = .running → exec (f d a) s = .next t → t.run = .running →
      ∃ u, exec (f 31 a) s = .next u ∧ u.pc = t.reg d ∧ ∀ r, r ≠ 31 → u.reg r = s.reg r) ∧
    (∀ (d : Reg) (imm : Nat) (s : State), ∃ t u, exec (.ldi d imm) s = .next t ∧ exec (.ldi 31 imm) s = .next u ∧
      u.pc = t.reg d ∧ ∀ r, r ≠ 31 → u.reg r = s.reg r) ∧
    (∀ s t : State, s.run = .running → (∀ r, t.run ≠ .faulted r) →
      (exec .nop s = .next t ∨ (∃ d imm, exec (.sys d imm) s = .next t) ∨ (∃ d a, exec (.st d a) s = .next t)) →
      t.pc = s.pc)

/-- Two running states with canonical memories that agree on every register, every byte and MEM_SIZE, and may differ
in anything else (lines already emitted, held word), both step to a next state, and those agree on every
register, every byte, MEM_SIZE and the run state, and append the same lines. (R93) -/
def Obligations.StepReadsOnlyRegistersMemoryAndSize : Prop :=
  ∀ s s' : State, s.run = .running → s'.run = .running → s.mem.wf → s'.mem.wf → (∀ r, s'.reg r = s.reg r) →
    SameBytes s s' → s'.memSize = s.memSize →
    ∃ t t' lines, step s = .next t ∧ step s' = .next t' ∧ (∀ r, t'.reg r = t.reg r) ∧ SameBytes t t' ∧
      t'.memSize = t.memSize ∧ t'.run = t.run ∧ t.diag = s.diag ++ lines ∧ t'.diag = s'.diag ++ lines

/-- Memories in canonical form that read the same byte at every address are equal lists (log 14). (R50, 20_memory.md
section 1) -/
def Obligations.EqualBytesAreEqualMemories : Prop :=
  ∀ m m' : Memory, m.wf → m'.wf → (∀ x, m.read x = m'.read x) → m = m'

/-- For every state with canonical memory and every word w, the next step of the state with w placed for the fetch
runs decode w after the advance, from a running state u that differs from the given one only in its run state
and in the four bytes at its program counter when four bytes fit there. How the word is placed, and what is set
where no fetch could happen, is the model's own choice (log 4). (R56, R91, 70_reset_and_hazards.md section 2) -/
def Obligations.FetchWordRunsNext : Prop :=
  ∀ (s : State) (w : InsnWord), s.mem.wf → ∃ u : State, WordAt u w ∧ u.run = .running ∧
    step (s.withFetchWord 32 w.toNat) = retire (exec (decode w) (u.advance w)) ∧
    (s.pc.toNat + 4 ≤ s.memSize.val → (∀ r, u.reg r = s.reg r) ∧ u.memSize = s.memSize ∧ u.diag = s.diag ∧
      ∀ y, (y < s.pc.toNat ∨ s.pc.toNat + 4 ≤ y) → u.byteAt y = s.byteAt y)

/-- Every word of opcode 0 is a nop, and nop completes in every state with nothing changed beyond the advance that
precedes it. (R110) -/
def Obligations.NopDoesNothing : Prop :=
  EncodesN 0 .nop ∧ ∀ s : State, exec .nop s = .next s

/-- Every word of opcode 1 is a sys of its d and imm. In every state it completes with every register (x[31] keeps
the advanced value), every byte and MEM_SIZE unchanged: code 1 gives Halted(0), code 2 Halted(1), code 3 Running
and one diagnostic line for x[d], every other 22-bit code Aborted(code); only code 3 emits anything. (R111,
R112, R230, R231, R232) -/
def Obligations.SysOutcomes : Prop :=
  EncodesI 1 .sys ∧ ∀ (s : State) (d : Reg) (imm : Nat), imm < 2 ^ 22 → Completes (.sys d imm) s fun t =>
    (∀ r, t.reg r = s.reg r) ∧ SameBytes s t ∧ t.memSize = s.memSize ∧ t.fetched = s.fetched ∧
    (imm = 1 → t.run = .halted 0 ∧ t.diag = s.diag) ∧ (imm = 2 → t.run = .halted 1 ∧ t.diag = s.diag) ∧
    (imm = 3 → t.run = .running ∧ ∃ line, IsDiagLine (s.reg d) line ∧ t.diag = s.diag ++ [line]) ∧
    (imm ≠ 1 → imm ≠ 2 → imm ≠ 3 → t.run = .aborted (BitVec.ofNat 64 imm) ∧ t.diag = s.diag)

/-- sys with code 3 completes in every state: it appends exactly one line, the characters "debug: ", a "-" exactly
when s64(x[d]) is negative, the decimal digits of its magnitude with no leading zeros (0 is "0"), and a line
feed; the run state is Running and the program counter keeps the advanced value. (R233) -/
def Obligations.DiagnosticLineIsSignedDecimal : Prop :=
  ∀ (s : State) (d : Reg), Completes (.sys d 3) s fun t => t.run = .running ∧ t.pc = s.pc ∧
    ∃ digits : List Char, t.diag = s.diag ++ [['d', 'e', 'b', 'u', 'g', ':', ' '] ++
        (if (s.reg d).toInt < 0 then ['-'] else []) ++ digits ++ [Char.ofNat 10]] ∧
      IsDecimal (s.reg d).toInt.natAbs digits

/-- Every word whose opcode is 26 to 31 decodes to the reserved instruction of that opcode, and each of the six, in
every state, raises ReservedOpcode with its own opcode and changes nothing but what the fault changes. (R89,
R223) -/
def Obligations.ReservedOpcodesFault : Prop :=
  ∀ p ∈ [(26, Instr.reserved26), (27, .reserved27), (28, .reserved28), (29, .reserved29), (30, .reserved30),
      (31, .reserved31)],
    EncodesN p.1 p.2 ∧ ∀ s : State, Completes p.2 s (Raises (.reservedOpcode (Fin.ofNat 32 p.1)) s)

/-- Every word of opcode 4, 5, 6 is add, sub, mul of its fields. In every state and for all registers (31 and equal
ones included) each completes with x[d] the sum, difference or product of the old x[a] and x[b] modulo 2^64, the
same operation on the signed readings, and nothing but x[d] changed; no fault. (R122, R123, R124) -/
def Obligations.AddSubMulWrapModulo : Prop :=
  EncodesR3 4 .add ∧ EncodesR3 5 .sub ∧ EncodesR3 6 .mul ∧ ∀ (s : State) (d a b : Reg),
    Completes (.add d a b) s (fun t => OnlyReg d s t ∧
      (t.reg d).toNat = ((s.reg a).toNat + (s.reg b).toNat) % 2 ^ 64 ∧
      (t.reg d).toInt = ((s.reg a).toInt + (s.reg b).toInt).bmod (2 ^ 64)) ∧
    Completes (.sub d a b) s (fun t => OnlyReg d s t ∧
      ((t.reg d).toNat : Int) = (((s.reg a).toNat : Int) - (s.reg b).toNat) % 2 ^ 64 ∧
      (t.reg d).toInt = ((s.reg a).toInt - (s.reg b).toInt).bmod (2 ^ 64)) ∧
    Completes (.mul d a b) s (fun t => OnlyReg d s t ∧
      (t.reg d).toNat = ((s.reg a).toNat * (s.reg b).toNat) % 2 ^ 64 ∧
      (t.reg d).toInt = ((s.reg a).toInt * (s.reg b).toInt).bmod (2 ^ 64))

/-- Every word of opcode 7, 8 is udiv, umod of its fields. With a nonzero divisor each completes with x[d] the floor
of the unsigned quotient, or the dividend less the divisor times it, which is less than the divisor, and nothing
but x[d] changed; with divisor 0 each raises ArithmeticFault(divide_by_zero) and writes nothing. (R125, R126) -/
def Obligations.UnsignedDivision : Prop :=
  EncodesR3 7 .udiv ∧ EncodesR3 8 .umod ∧ ∀ (s : State) (d a b : Reg),
    (s.reg b ≠ 0 →
      Completes (.udiv d a b) s (fun t => OnlyReg d s t ∧ (t.reg d).toNat = (s.reg a).toNat / (s.reg b).toNat) ∧
      Completes (.umod d a b) s (fun t => OnlyReg d s t ∧ (t.reg d).toNat < (s.reg b).toNat ∧
        (s.reg b).toNat * ((s.reg a).toNat / (s.reg b).toNat) + (t.reg d).toNat = (s.reg a).toNat)) ∧
    (s.reg b = 0 →
      Completes (.udiv d a b) s (Raises (.arithmeticFault .divideByZero) s) ∧
      Completes (.umod d a b) s (Raises (.arithmeticFault .divideByZero) s))

/-- Every word of opcode 2, 3 is sdiv, smod of its fields. With a nonzero divisor and not -2^63 by -1, each
completes with s64(x[d]) the quotient truncated toward zero, or the dividend less the divisor times it, and
nothing but x[d] changed; divisor 0 raises ArithmeticFault(divide_by_zero), -2^63 by -1 raises
ArithmeticFault(overflow), for both. (R120, R121) -/
def Obligations.SignedDivision : Prop :=
  EncodesR3 2 .sdiv ∧ EncodesR3 3 .smod ∧ ∀ (s : State) (d a b : Reg),
    (s.reg b ≠ 0 → ¬ (s.reg a = 0x8000000000000000 ∧ s.reg b = 0xFFFFFFFFFFFFFFFF) →
      Completes (.sdiv d a b) s (fun t => OnlyReg d s t ∧ (t.reg d).toInt = (s.reg a).toInt.tdiv (s.reg b).toInt) ∧
      Completes (.smod d a b) s (fun t => OnlyReg d s t ∧
        (t.reg d).toInt = (s.reg a).toInt - (s.reg b).toInt * (s.reg a).toInt.tdiv (s.reg b).toInt)) ∧
    (s.reg b = 0 →
      Completes (.sdiv d a b) s (Raises (.arithmeticFault .divideByZero) s) ∧
      Completes (.smod d a b) s (Raises (.arithmeticFault .divideByZero) s)) ∧
    (s.reg a = 0x8000000000000000 → s.reg b = 0xFFFFFFFFFFFFFFFF →
      Completes (.sdiv d a b) s (Raises (.arithmeticFault .overflow) s) ∧
      Completes (.smod d a b) s (Raises (.arithmeticFault .overflow) s))

/-- For a nonzero divisor and not -2^63 by -1, sdiv completes with q and smod with r, as signed numbers, where n = m
* q + r, |r| < |m|, r is 0 or has the sign of n, and |m * q| <= |n| (the quotient is rounded toward zero); for
-2^63 by -1 both raise ArithmeticFault(overflow). (R128) -/
def Obligations.SignedQuotientAndRemainderLaw : Prop :=
  ∀ (s : State) (d a b : Reg),
    (s.reg b ≠ 0 → ¬ ((s.reg a).toInt = -2 ^ 63 ∧ (s.reg b).toInt = -1) →
      ∃ t u, exec (.sdiv d a b) s = .next t ∧ exec (.smod d a b) s = .next u ∧ t.run = s.run ∧ u.run = s.run ∧
        (s.reg a).toInt = (s.reg b).toInt * (t.reg d).toInt + (u.reg d).toInt ∧
        |(u.reg d).toInt| < |(s.reg b).toInt| ∧ 0 ≤ (u.reg d).toInt * (s.reg a).toInt ∧
        |(s.reg b).toInt * (t.reg d).toInt| ≤ |(s.reg a).toInt|) ∧
    ((s.reg a).toInt = -2 ^ 63 → (s.reg b).toInt = -1 →
      Completes (.sdiv d a b) s (Raises (.arithmeticFault .overflow) s) ∧
      Completes (.smod d a b) s (Raises (.arithmeticFault .overflow) s))

/-- Every word of opcode 15 to 18 is and, or, xor, not of its fields. In every state each completes; bit i of x[d]
is the and, or, exclusive-or of bit i of the old x[a] and x[b], or the complement of bit i of x[a], for each of
the 64 bits; nothing but x[d] changed. (R160, R161, R162, R163) -/
def Obligations.BitwiseLogic : Prop :=
  EncodesR3 15 .and ∧ EncodesR3 16 .or ∧ EncodesR3 17 .xor ∧ EncodesR2 18 .not ∧ ∀ (s : State) (d a b : Reg),
    Completes (.and d a b) s (fun t => OnlyReg d s t ∧
      ∀ i, i < 64 → (t.reg d).getLsbD i = ((s.reg a).getLsbD i && (s.reg b).getLsbD i)) ∧
    Completes (.or d a b) s (fun t => OnlyReg d s t ∧
      ∀ i, i < 64 → (t.reg d).getLsbD i = ((s.reg a).getLsbD i || (s.reg b).getLsbD i)) ∧
    Completes (.xor d a b) s (fun t => OnlyReg d s t ∧
      ∀ i, i < 64 → (t.reg d).getLsbD i = ((s.reg a).getLsbD i != (s.reg b).getLsbD i)) ∧
    Completes (.not d a) s (fun t => OnlyReg d s t ∧
      ∀ i, i < 64 → (t.reg d).getLsbD i = !(s.reg a).getLsbD i)

/-- Every word of opcode 19, 20 is shl, shr of its fields. With n = u64(x[b]), unmasked: for n < 64 bit i of x[d] is
bit i - n of x[a] (0 below n) for shl, bit i + n of x[a] (0 from 64 on) for shr; for n >= 64 x[d] is 0. Each
completes in every state with nothing but x[d] changed. (R164, R165, R166) -/
def Obligations.ShiftsUseTheWholeAmount : Prop :=
  EncodesR3 19 .shl ∧ EncodesR3 20 .shr ∧ ∀ (s : State) (d a b : Reg),
    Completes (.shl d a b) s (fun t => OnlyReg d s t ∧ (64 ≤ (s.reg b).toNat → t.reg d = 0) ∧
      ((s.reg b).toNat < 64 → ∀ i, i < 64 → (t.reg d).getLsbD i =
        (decide ((s.reg b).toNat ≤ i) && (s.reg a).getLsbD (i - (s.reg b).toNat)))) ∧
    Completes (.shr d a b) s (fun t => OnlyReg d s t ∧ (64 ≤ (s.reg b).toNat → t.reg d = 0) ∧
      ((s.reg b).toNat < 64 → ∀ i, i < 64 → (t.reg d).getLsbD i =
        (decide (i + (s.reg b).toNat < 64) && (s.reg a).getLsbD (i + (s.reg b).toNat))))

/-- For all operands each completes with nothing but x[d] changed and no fault; a NaN x[a] gives x[a] with bit 51
set, otherwise a NaN x[b] gives x[b] with bit 51 set, otherwise an invalid operation gives 0xFFF8000000000000,
otherwise the result is not a NaN. Which patterns are a NaN, an infinity or a zero is the IEEE-754 reading of
log 12 (PRESUMED), which the rules name and do not give. (R141, R142, R143, R144, R148) -/
def Obligations.FloatResultsFollowTheNaNRule : Prop :=
  ∀ (s : State) (d a b : Reg),
    Completes (.fadd d a b) s (fun t => OnlyReg d s t ∧ NaNRule 9 (s.reg a) (s.reg b) (t.reg d)) ∧
    Completes (.fsub d a b) s (fun t => OnlyReg d s t ∧ NaNRule 10 (s.reg a) (s.reg b) (t.reg d)) ∧
    Completes (.fmul d a b) s (fun t => OnlyReg d s t ∧ NaNRule 11 (s.reg a) (s.reg b) (t.reg d)) ∧
    Completes (.fdiv d a b) s (fun t => OnlyReg d s t ∧ NaNRule 12 (s.reg a) (s.reg b) (t.reg d))

/-- Every word of opcode 9, 10 is fadd, fsub of its fields. For finite operands, subnormals and zeros included, each
completes with nothing but x[d] changed and x[d] the exact rational sum or difference rounded to the nearest
binary64 value, ties to even, overflow to infinity; the sign is that of the exact result, and an exact zero is
-0 exactly when the sign bits of both terms (for fsub the second one flipped) are set. The value of a pattern,
the boundary from which the result is an infinity and the sign of a zero sum are the IEEE-754 standard's (log
12, PRESUMED). (R14, R141, R142, R147, 92_eei_decisions.md D13 and D15) -/
def Obligations.FloatSumsAreRoundedToNearestEven : Prop :=
  EncodesR3 9 .fadd ∧ EncodesR3 10 .fsub ∧ ∀ (s : State) (d a b : Reg), IsFin (s.reg a) → IsFin (s.reg b) →
    Completes (.fadd d a b) s (fun t => OnlyReg d s t ∧ RoundsTo (value (s.reg a) + value (s.reg b)) (t.reg d) ∧
      signOf (t.reg d) = (if value (s.reg a) + value (s.reg b) = 0 then signOf (s.reg a) && signOf (s.reg b)
        else decide (value (s.reg a) + value (s.reg b) < 0))) ∧
    Completes (.fsub d a b) s (fun t => OnlyReg d s t ∧ RoundsTo (value (s.reg a) - value (s.reg b)) (t.reg d) ∧
      signOf (t.reg d) = (if value (s.reg a) - value (s.reg b) = 0 then signOf (s.reg a) && !signOf (s.reg b)
        else decide (value (s.reg a) - value (s.reg b) < 0)))

/-- Every word of opcode 11, 12 is fmul, fdiv of its fields. For finite operands, and a divisor that is not zero,
each completes with nothing but x[d] changed and x[d] the exact rational product or quotient rounded to the
nearest binary64 value, ties to even, overflow to infinity; its sign bit is the exclusive-or of the operands'
sign bits, zero results included. The value of a pattern, the boundary from which the result is an infinity and
the sign of a quotient are the IEEE-754 standard's (log 12, PRESUMED). (R14, R143, R144, R147,
92_eei_decisions.md D13 and D15) -/
def Obligations.FloatProductsAreRoundedToNearestEven : Prop :=
  EncodesR3 11 .fmul ∧ EncodesR3 12 .fdiv ∧ ∀ (s : State) (d a b : Reg), IsFin (s.reg a) → IsFin (s.reg b) →
    Completes (.fmul d a b) s (fun t => OnlyReg d s t ∧ RoundsTo (value (s.reg a) * value (s.reg b)) (t.reg d) ∧
      signOf (t.reg d) = (signOf (s.reg a) != signOf (s.reg b))) ∧
    (¬ IsZero (s.reg b) →
      Completes (.fdiv d a b) s (fun t => OnlyReg d s t ∧ RoundsTo (value (s.reg a) / value (s.reg b)) (t.reg d) ∧
        signOf (t.reg d) = (signOf (s.reg a) != signOf (s.reg b))))

/-- With no NaN and no invalid operation: an infinite term of fadd or fsub gives that infinity (its negative for the
subtrahend); an infinite factor gives an infinity, an infinite dividend over a finite divisor and a finite
nonzero dividend over zero an infinity, and a finite dividend over an infinity a zero, each with the
exclusive-or of the signs. The IEEE-754 results named here, and which patterns are a NaN, an infinity or a zero,
are log 12's (PRESUMED). (R141, R142, R143, R144, R147) -/
def Obligations.FloatInfinitiesFollowIeee : Prop :=
  ∀ (s : State) (d a b : Reg), ¬ IsNaN (s.reg a) → ¬ IsNaN (s.reg b) →
    Completes (.fadd d a b) s (fun t => ¬ Invalid 9 (s.reg a) (s.reg b) →
      (IsInf (s.reg a) → t.reg d = s.reg a) ∧ (IsInf (s.reg b) → t.reg d = s.reg b)) ∧
    Completes (.fsub d a b) s (fun t => ¬ Invalid 10 (s.reg a) (s.reg b) →
      (IsInf (s.reg a) → t.reg d = s.reg a) ∧
      (IsInf (s.reg b) → IsInf (t.reg d) ∧ signOf (t.reg d) = !signOf (s.reg b))) ∧
    Completes (.fmul d a b) s (fun t => ¬ Invalid 11 (s.reg a) (s.reg b) → IsInf (s.reg a) ∨ IsInf (s.reg b) →
      IsInf (t.reg d) ∧ signOf (t.reg d) = (signOf (s.reg a) != signOf (s.reg b))) ∧
    Completes (.fdiv d a b) s (fun t => ¬ Invalid 12 (s.reg a) (s.reg b) →
      (IsInf (s.reg a) ∨ IsZero (s.reg b) →
        IsInf (t.reg d) ∧ signOf (t.reg d) = (signOf (s.reg a) != signOf (s.reg b))) ∧
      (IsInf (s.reg b) → IsZero (t.reg d) ∧ signOf (t.reg d) = (signOf (s.reg a) != signOf (s.reg b))))

/-- Every word of opcode 13 is an ftoi of its fields. In every state it completes with nothing but x[d] changed: a
NaN gives 0; minus infinity and a finite value <= -1.0 give 0; plus infinity and a finite value >= 2^64 give
0xFFFFFFFFFFFFFFFF; every other value v gives trunc(v) exactly, the integer part toward zero. The value of a
pattern, and which patterns are a NaN or an infinity, are the IEEE-754 reading of log 12 (PRESUMED). (R145) -/
def Obligations.FtoiTruncatesAndSaturates : Prop :=
  EncodesR2 13 .ftoi ∧ ∀ (s : State) (d a : Reg), Completes (.ftoi d a) s fun t => OnlyReg d s t ∧
    (IsNaN (s.reg a) → t.reg d = 0) ∧
    (IsInf (s.reg a) → t.reg d = if signOf (s.reg a) then 0 else 0xFFFFFFFFFFFFFFFF) ∧
    (IsFin (s.reg a) → value (s.reg a) ≤ -1 → t.reg d = 0) ∧
    (IsFin (s.reg a) → 2 ^ 64 ≤ value (s.reg a) → t.reg d = 0xFFFFFFFFFFFFFFFF) ∧
    (IsFin (s.reg a) → -1 < value (s.reg a) → value (s.reg a) < 2 ^ 64 →
      ((t.reg d).toNat : ℤ) = if 0 ≤ value (s.reg a) then ⌊value (s.reg a)⌋ else ⌈value (s.reg a)⌉)

/-- Every word of opcode 14 is an itof of its fields. In every state it completes with x[d] the pattern of u64(x[a])
rounded to nearest, ties to even, with sign bit 0, and nothing but x[d] changed: there is no fall-through into
and. The value of a pattern and the rounding boundary are the IEEE-754 standard's (log 12, PRESUMED). (R146) -/
def Obligations.ItofRoundsToNearestEven : Prop :=
  EncodesR2 14 .itof ∧ ∀ (s : State) (d a : Reg), Completes (.itof d a) s fun t => OnlyReg d s t ∧
    IsFin (t.reg d) ∧ RoundsTo ((s.reg a).toNat : ℚ) (t.reg d) ∧ signOf (t.reg d) = false

/-- For every register value n <= 2^53, itof into e and then ftoi from e complete and give n; for n = 2^53 + 1 they
give 2^53. The pattern between them is log 12's (PRESUMED). (R145, R146, R149) -/
def Obligations.FtoiOfItofIsIdentityBelow2Pow53 : Prop :=
  ∀ (s : State) (d e a : Reg), ∃ t u, exec (.itof e a) s = .next t ∧ exec (.ftoi d e) t = .next u ∧
    ((s.reg a).toNat ≤ 2 ^ 53 → u.reg d = s.reg a) ∧ ((s.reg a).toNat = 2 ^ 53 + 1 → (u.reg d).toNat = 2 ^ 53)

/-- Every word of opcode 21 is an ld of its fields. When x[a] + 8 <= MEM_SIZE it completes with byte k of x[d] the
byte at x[a] + k for k = 0 to 7 and nothing but x[d] changed; otherwise it raises MemoryFault(load, x[a]) and
writes nothing. (R180) -/
def Obligations.LoadReadsEightBytes : Prop :=
  EncodesR2 21 .ld ∧ ∀ (s : State) (d a : Reg),
    ((s.reg a).toNat + 8 ≤ s.memSize.val → Completes (.ld d a) s fun t => OnlyReg d s t ∧
      ∀ k, k < 8 → (t.reg d).toNat / 256 ^ k % 256 = (s.byteAt ((s.reg a).toNat + k)).toNat) ∧
    (s.memSize.val < (s.reg a).toNat + 8 → Completes (.ld d a) s (Raises (.memoryFault .load (s.reg a)) s))

/-- Every word of opcode 22 is an st of its fields. On canonical memory with x[d] + 8 <= MEM_SIZE it completes: the
byte at x[d] + k is byte k of x[a] for k = 0 to 7, every byte outside those eight and every register is
unchanged, and so is the rest; when x[d] + 8 > MEM_SIZE, in any state, it raises MemoryFault(store, x[d]) and no
byte is written. (R181) -/
def Obligations.StoreWritesEightBytes : Prop :=
  EncodesR2 22 .st ∧ ∀ (s : State) (d a : Reg),
    (s.mem.wf → (s.reg d).toNat + 8 ≤ s.memSize.val → Completes (.st d a) s fun t =>
      (∀ r, t.reg r = s.reg r) ∧ SameRest s t ∧
      (∀ k, k < 8 → (t.byteAt ((s.reg d).toNat + k)).toNat = (s.reg a).toNat / 256 ^ k % 256) ∧
      ∀ y, (y < (s.reg d).toNat ∨ (s.reg d).toNat + 8 ≤ y) → t.byteAt y = s.byteAt y) ∧
    (s.memSize.val < (s.reg d).toNat + 8 → Completes (.st d a) s (Raises (.memoryFault .store (s.reg d)) s))

/-- On canonical memory, after an st of V to address X with X + 8 <= MEM_SIZE, in every later state u of the same
MEM_SIZE whose bytes X to X + 7 are still those, an ld from X completes and gives exactly V. (R183) -/
def Obligations.StoreThenLoadReturnsTheValue : Prop :=
  ∀ (s : State) (d a : Reg), s.mem.wf → (s.reg d).toNat + 8 ≤ s.memSize.val →
    ∃ t, exec (.st d a) s = .next t ∧ ∀ (u : State) (e c : Reg), u.reg c = s.reg d → u.memSize = s.memSize →
      (∀ k, k < 8 → u.byteAt ((s.reg d).toNat + k) = t.byteAt ((s.reg d).toNat + k)) →
      Completes (.ld e c) u fun v => v.reg e = s.reg a

/-- On canonical memory, after an st of V to X: a fetch at X (with the program counter there) gives bits 31:0 of V,
a fetch at X + 4 bits 63:32; a load at X + 1 gives bytes 1 to 7 of V in its bits 55:0 and the byte at X + 8 in
its bits 63:56. (R59) -/
def Obligations.MixedWidthAccessesSeeTheBytes : Prop :=
  ∀ (s : State) (d a : Reg), s.mem.wf → (s.reg d).toNat + 8 ≤ s.memSize.val →
    ∃ t, exec (.st d a) s = .next t ∧
      (∀ u : State, u.mem = t.mem → u.memSize = t.memSize →
        (u.pc = s.reg d → ∃ w, u.fetch = .ok w ∧ w.toNat = (s.reg a).toNat % 2 ^ 32) ∧
        (u.pc.toNat = (s.reg d).toNat + 4 → ∃ w, u.fetch = .ok w ∧ w.toNat = (s.reg a).toNat / 2 ^ 32) ∧
        (∀ e c : Reg, (u.reg c).toNat = (s.reg d).toNat + 1 → (s.reg d).toNat + 9 ≤ s.memSize.val →
          Completes (.ld e c) u fun v =>
            (v.reg e).toNat = (s.reg a).toNat / 2 ^ 8 + 2 ^ 56 * (s.byteAt ((s.reg d).toNat + 8)).toNat))

/-- Every word of opcode 23 is an ldi of its d and imm, and of opcode 24 a mov of its d and a. In every state ldi
completes with u64(x[d]) = imm for every 22-bit imm, mov with x[d] the old x[a], and nothing but x[d] changed;
with d = 31 the program counter is that value. (R190, R191) -/
def Obligations.LoadImmediateAndMove : Prop :=
  EncodesI 23 .ldi ∧ EncodesR2 24 .mov ∧ ∀ (s : State) (d a : Reg) (imm : Nat),
    (imm < 2 ^ 22 → Completes (.ldi d imm) s fun t => OnlyReg d s t ∧ (t.reg d).toNat = imm ∧
      (d = 31 → t.pc.toNat = imm)) ∧
    Completes (.mov d a) s (fun t => OnlyReg d s t ∧ t.reg d = s.reg a ∧ (d = 31 → t.pc = s.reg a))

/-- Every word of opcode 25 is a jnz of its d and a. In every state it completes: when x[a] as a 64-bit integer is
not 0 the program counter is the old x[d] and nothing else changed, when it is 0 nothing changed; the target is
not checked, d = 31 never changes the program counter, and a = 31 takes the jump whenever x[31] is not 0. (R200) -/
def Obligations.JumpIfNotZero : Prop :=
  EncodesR2 25 .jnz ∧ ∀ (s : State) (d a : Reg), Completes (.jnz d a) s fun t => OnlyReg 31 s t ∧
    ((s.reg a).toNat ≠ 0 → t.pc = s.reg d) ∧ ((s.reg a).toNat = 0 → t.pc = s.pc) ∧
    (d = 31 → t.pc = s.pc) ∧ (a = 31 → s.pc ≠ 0 → t.pc = s.reg d)

/-- In every state: j rs makes the program counter x[rs]; jmp imm makes it imm; rdpc rd writes the advanced program
counter to x[rd]; halt gives Halted(0), fail Halted(1); debug rs emits the line of x[rs] and continues. (R96) -/
def Obligations.PseudoInstructionEffects : Prop :=
  ∀ (s : State) (r : Reg) (imm : Nat), imm < 2 ^ 22 →
    (Pseudo.j r).expand = .mov 31 r ∧ (Pseudo.jmp imm).expand = .ldi 31 imm ∧ (Pseudo.rdpc r).expand = .mov r 31 ∧
    Pseudo.halt.expand = .sys 0 1 ∧ Pseudo.fail.expand = .sys 0 2 ∧ (Pseudo.debug r).expand = .sys r 3 ∧
    Completes (Pseudo.j r).expand s (fun t => OnlyReg 31 s t ∧ t.pc = s.reg r) ∧
    Completes (Pseudo.jmp imm).expand s (fun t => OnlyReg 31 s t ∧ t.pc.toNat = imm) ∧
    Completes (Pseudo.rdpc r).expand s (fun t => OnlyReg r s t ∧ t.reg r = s.pc) ∧
    Completes Pseudo.halt.expand s (fun t => t.run = .halted 0 ∧ t.pc = s.pc) ∧
    Completes Pseudo.fail.expand s (fun t => t.run = .halted 1 ∧ t.pc = s.pc) ∧
    Completes (Pseudo.debug r).expand s (fun t => t.run = .running ∧ t.pc = s.pc ∧
      ∃ line, IsDiagLine (s.reg r) line ∧ t.diag = s.diag ++ [line])

/-- Construction with MEM_SIZE = 0 fails with InvalidConstruction(memory_size); otherwise with INIT_PC >= MEM_SIZE
it fails with InvalidConstruction(initial_pc); otherwise it makes a core. One whose INIT_PC is in the last three
bytes faults at its first fetch. (R225, R261) -/
def Obligations.ConstructionChecks : Prop :=
  ∀ p : Params,
    (p.memSize.val = 0 → State.construct p = .error .memorySize) ∧
    (0 < p.memSize.val → p.memSize.val ≤ p.initPc.toNat → State.construct p = .error .initialPc) ∧
    (p.initPc.toNat < p.memSize.val → ∃ s, State.construct p = .ok s ∧
      (p.memSize.val < p.initPc.toNat + 4 → ∃ t, step s = .next t ∧
        t.run = .faulted ⟨.memoryFault .fetch p.initPc, p.initPc, none⟩)) ∧
    ConstructError.memorySize.errorKind = .invalidConstruction ∧
    ConstructError.initialPc.errorKind = .invalidConstruction

/-- A core that construction makes holds INIT_GPR in registers 0 to 30, INIT_PC in register 31 and as its program
counter, INIT_MEM at every address, and MEM_SIZE; its run state is Running and no diagnostic line has been
emitted. It holds for every value of the four parameters. (R262, R263, R264, R265) -/
def Obligations.ConstructionValues : Prop :=
  ∀ (p : Params) (s : State), State.construct p = .ok s →
    (∀ i : Fin 31, s.reg (Fin.castSucc i) = p.initGpr[i.val]) ∧ s.reg 31 = p.initPc ∧ s.pc = p.initPc ∧
    (∀ x, s.byteAt x = p.initMem.read x) ∧ s.memSize = p.memSize ∧ s.run = .running ∧ s.diag = []

/-- State.reset is the construction with MEM_SIZE 2^64 - 1, no byte listed, INIT_PC 0 (the convention of R263) and
INIT_GPR all 0; the size, the bytes and the register values are the model's choices (logs 1, 2 and 3). (R9,
R260, R266) -/
def Obligations.ResetIsAConstruction : Prop :=
  ∀ p : Params, p.memSize.val = 2 ^ 64 - 1 → p.initMem = [] → p.initPc = 0 → (∀ i : Fin 31, p.initGpr[i.val] = 0) →
    State.construct p = .ok State.reset
end

