-- ==== Sys2Proof/Laws/State.lean ====
section
/-! SUPPORT. One lemma per field of the state and update of it, and the register file's read-after-write laws. -/

namespace Sys2Proof.Machine

@[simp] theorem State.reg_setReg (s : State) (d r : Reg) (v : Word) :
    (s.setReg d v).reg r = if r = d then v else s.reg r := by
  simp only [State.reg, State.setReg, Vector.getElem_set, Fin.ext_iff]
  by_cases h : d.val = r.val
  · simp [h]
  · simp [h, Ne.symm h]

@[simp] theorem State.setReg_mem (s : State) (d : Reg) (v : Word) : (s.setReg d v).mem = s.mem := rfl
@[simp] theorem State.setReg_memSize (s : State) (d : Reg) (v : Word) : (s.setReg d v).memSize = s.memSize := rfl
@[simp] theorem State.setReg_run (s : State) (d : Reg) (v : Word) : (s.setReg d v).run = s.run := rfl
@[simp] theorem State.setReg_fetched (s : State) (d : Reg) (v : Word) : (s.setReg d v).fetched = s.fetched := rfl
@[simp] theorem State.setReg_diag (s : State) (d : Reg) (v : Word) : (s.setReg d v).diag = s.diag := rfl
@[simp] theorem State.setReg_byteAt (s : State) (d : Reg) (v : Word) (x : Nat) :
    (s.setReg d v).byteAt x = s.byteAt x := rfl

@[simp] theorem State.reg_setPc (s : State) (r : Reg) (v : Word) :
    (s.setPc v).reg r = if r = pcReg then v else s.reg r := State.reg_setReg ..
@[simp] theorem State.pc_setPc (s : State) (v : Word) : (s.setPc v).pc = v := by simp [State.pc]
@[simp] theorem State.setPc_mem (s : State) (v : Word) : (s.setPc v).mem = s.mem := rfl
@[simp] theorem State.setPc_memSize (s : State) (v : Word) : (s.setPc v).memSize = s.memSize := rfl
@[simp] theorem State.setPc_run (s : State) (v : Word) : (s.setPc v).run = s.run := rfl
@[simp] theorem State.setPc_fetched (s : State) (v : Word) : (s.setPc v).fetched = s.fetched := rfl
@[simp] theorem State.setPc_diag (s : State) (v : Word) : (s.setPc v).diag = s.diag := rfl
@[simp] theorem State.setPc_byteAt (s : State) (v : Word) (x : Nat) : (s.setPc v).byteAt x = s.byteAt x := rfl

section TakeFault
variable (s : State) (c : FaultCause) (p : Word) (w : Option InsnWord)

@[simp] theorem State.reg_takeFault (r : Reg) :
    (s.takeFault c p w).reg r = if r = pcReg then p else s.reg r := State.reg_setReg ..
@[simp] theorem State.pc_takeFault : (s.takeFault c p w).pc = p := by simp [State.pc]
@[simp] theorem State.takeFault_mem : (s.takeFault c p w).mem = s.mem := rfl
@[simp] theorem State.takeFault_memSize : (s.takeFault c p w).memSize = s.memSize := rfl
@[simp] theorem State.takeFault_run : (s.takeFault c p w).run = .faulted ⟨c, p, w⟩ := rfl
@[simp] theorem State.takeFault_fetched : (s.takeFault c p w).fetched = s.fetched := rfl
@[simp] theorem State.takeFault_diag : (s.takeFault c p w).diag = s.diag := rfl
@[simp] theorem State.takeFault_byteAt (x : Nat) : (s.takeFault c p w).byteAt x = s.byteAt x := rfl

@[simp] theorem State.reg_raise (r : Reg) :
    (s.raise c).reg r = if r = pcReg then s.pc - 4 else s.reg r := State.reg_takeFault ..
@[simp] theorem State.pc_raise : (s.raise c).pc = s.pc - 4 := State.pc_takeFault ..
@[simp] theorem State.raise_mem : (s.raise c).mem = s.mem := rfl
@[simp] theorem State.raise_memSize : (s.raise c).memSize = s.memSize := rfl
@[simp] theorem State.raise_run : (s.raise c).run = .faulted ⟨c, s.pc - 4, s.fetched⟩ := rfl
@[simp] theorem State.raise_fetched : (s.raise c).fetched = s.fetched := rfl
@[simp] theorem State.raise_diag : (s.raise c).diag = s.diag := rfl
@[simp] theorem State.raise_byteAt (x : Nat) : (s.raise c).byteAt x = s.byteAt x := rfl

@[simp] theorem State.reg_fetchFault (r : Reg) : (s.fetchFault c).reg r = s.reg r := by
  simp only [State.fetchFault, State.reg_takeFault]
  split
  · subst_vars; rfl
  · rfl
@[simp] theorem State.pc_fetchFault : (s.fetchFault c).pc = s.pc := State.reg_fetchFault ..
@[simp] theorem State.fetchFault_mem : (s.fetchFault c).mem = s.mem := rfl
@[simp] theorem State.fetchFault_memSize : (s.fetchFault c).memSize = s.memSize := rfl
@[simp] theorem State.fetchFault_run : (s.fetchFault c).run = .faulted ⟨c, s.pc, none⟩ := rfl
@[simp] theorem State.fetchFault_fetched : (s.fetchFault c).fetched = s.fetched := rfl
@[simp] theorem State.fetchFault_diag : (s.fetchFault c).diag = s.diag := rfl
@[simp] theorem State.fetchFault_byteAt (x : Nat) : (s.fetchFault c).byteAt x = s.byteAt x := rfl

end TakeFault

section Hypercall
variable (s : State) (r : HcallReq)

@[simp] theorem State.hypercall_regs : (s.hypercall r).regs = s.regs := rfl
@[simp] theorem State.reg_hypercall (i : Reg) : (s.hypercall r).reg i = s.reg i := rfl
@[simp] theorem State.pc_hypercall : (s.hypercall r).pc = s.pc := rfl
@[simp] theorem State.hypercall_mem : (s.hypercall r).mem = s.mem := rfl
@[simp] theorem State.hypercall_memSize : (s.hypercall r).memSize = s.memSize := rfl
@[simp] theorem State.hypercall_run : (s.hypercall r).run = r.answer.runState := rfl
@[simp] theorem State.hypercall_fetched : (s.hypercall r).fetched = s.fetched := rfl
@[simp] theorem State.hypercall_diag : (s.hypercall r).diag = s.diag ++ r.lines := rfl
@[simp] theorem State.hypercall_byteAt (x : Nat) : (s.hypercall r).byteAt x = s.byteAt x := rfl

end Hypercall

section Advance
variable (s : State) (w : InsnWord)

theorem State.advance_pc_eq : BitVec.ofNat 64 (s.pc.toNat + Config.insnBytes) = s.pc + 4 := by
  apply BitVec.eq_of_toNat_eq
  simp [Config.insnBytes, BitVec.toNat_add]

@[simp] theorem State.reg_advance (r : Reg) :
    (s.advance w).reg r = if r = pcReg then s.pc + 4 else s.reg r := by
  rw [← State.advance_pc_eq]
  exact State.reg_setReg ..
@[simp] theorem State.pc_advance : (s.advance w).pc = s.pc + 4 := by simp [State.pc]
@[simp] theorem State.advance_mem : (s.advance w).mem = s.mem := rfl
@[simp] theorem State.advance_memSize : (s.advance w).memSize = s.memSize := rfl
@[simp] theorem State.advance_run : (s.advance w).run = s.run := rfl
@[simp] theorem State.advance_fetched : (s.advance w).fetched = some w := rfl
@[simp] theorem State.advance_diag : (s.advance w).diag = s.diag := rfl
@[simp] theorem State.advance_byteAt (x : Nat) : (s.advance w).byteAt x = s.byteAt x := rfl

end Advance

@[simp] theorem State.endStep_regs (s : State) : s.endStep.regs = s.regs := rfl
@[simp] theorem State.reg_endStep (s : State) (r : Reg) : s.endStep.reg r = s.reg r := rfl
@[simp] theorem State.pc_endStep (s : State) : s.endStep.pc = s.pc := rfl
@[simp] theorem State.endStep_mem (s : State) : s.endStep.mem = s.mem := rfl
@[simp] theorem State.endStep_memSize (s : State) : s.endStep.memSize = s.memSize := rfl
@[simp] theorem State.endStep_run (s : State) : s.endStep.run = s.run := rfl
@[simp] theorem State.endStep_fetched (s : State) : s.endStep.fetched = none := rfl
@[simp] theorem State.endStep_diag (s : State) : s.endStep.diag = s.diag := rfl
@[simp] theorem State.endStep_byteAt (s : State) (x : Nat) : s.endStep.byteAt x = s.byteAt x := rfl

/-- Two states with the same registers have equal register files. -/
theorem State.regs_ext {s t : State} (h : ∀ r, s.reg r = t.reg r) : s.regs = t.regs := by
  ext i hi
  exact congrArg (fun v : Word => v[_]) (h ⟨i, hi⟩)

end Sys2Proof.Machine
end

