-- ==== Sys2Proof/Laws/Memory.lean ====
section
/-! SUPPORT. The laws of the byte memory: read after write, the canonical form, and the little-endian accesses. -/

namespace Sys2Proof.Machine

/-! ### One byte -/

/-- An address below every listed one reads as unlisted. -/
theorem Memory.read_of_lt {m : Memory} {x : Nat} (h : ∀ c ∈ m, x < c.1) :
    m.read x = Config.unlistedByte := by
  induction m with
  | nil => rfl
  | cons c m ih =>
    have hc := h c (by simp)
    simp only [Memory.read, if_neg (Nat.ne_of_lt hc)]
    exact ih fun e he => h e (by simp [he])

theorem Memory.read_push (m : Memory) (x y : Nat) (v : Byte) (h : y = x → m.read x = Config.unlistedByte) :
    (Memory.push x v m).read y = if y = x then v else m.read y := by
  unfold Memory.push
  split
  · rename_i hv
    split
    · rename_i hy; rw [hy, h hy, hv]
    · rfl
  · rfl

theorem Memory.wf_tail {c : Host.Cell} {m : Memory} (h : Memory.wf (c :: m)) : m.wf :=
  ⟨(List.pairwise_cons.1 h.1).2, fun e he => h.2 e (by simp [he])⟩

theorem Memory.wf_head {c : Host.Cell} {m : Memory} (h : Memory.wf (c :: m)) : ∀ e ∈ m, c.1 < e.1 :=
  (List.pairwise_cons.1 h.1).1

/-- Reading the byte just written, and any other byte. -/
theorem Memory.read_write {m : Memory} (h : m.wf) (x y : Nat) (v : Byte) :
    (m.write x v).read y = if y = x then v else m.read y := by
  induction m with
  | nil => exact Memory.read_push [] x y v fun _ => rfl
  | cons c m ih =>
    obtain ⟨a, b⟩ := c
    have hh := Memory.wf_head h
    simp only [Memory.write]
    split
    · rename_i hx
      exact Memory.read_push _ x y v fun _ => Memory.read_of_lt fun e he => by
        rcases List.mem_cons.1 he with rfl | he
        · exact hx
        · exact Nat.lt_trans hx (hh e he)
    · split
      · rename_i hx
        subst hx
        rw [Memory.read_push _ x y v fun _ => Memory.read_of_lt hh]
        simp only [Memory.read]
        split <;> rfl
      · rename_i h1 h2
        simp only [Memory.read, ih (Memory.wf_tail h)]
        split
        · rename_i hy
          rw [if_neg (by omega)]
        · rfl

/-- A write leaves every other byte alone, canonical form or not. -/
theorem Memory.read_write_ne (m : Memory) {x y : Nat} (hy : y ≠ x) (v : Byte) :
    (m.write x v).read y = m.read y := by
  have push : ∀ m : Memory, (Memory.push x v m).read y = m.read y := fun m => by
    rw [Memory.read_push m x y v fun h => absurd h hy, if_neg hy]
  induction m with
  | nil => exact push []
  | cons c m ih =>
    obtain ⟨a, b⟩ := c
    simp only [Memory.write]
    split
    · exact push _
    · split
      · rename_i hx
        rw [push, Memory.read, if_neg (by omega)]
      · simp only [Memory.read, ih]

/-- Every listed address of a written memory was listed or is the one written. -/
theorem Memory.mem_write {m : Memory} {x : Nat} {v : Byte} {c : Host.Cell} (h : c ∈ m.write x v) :
    c ∈ m ∨ c = (x, v) ∧ v ≠ Config.unlistedByte := by
  have push : ∀ {m : Memory}, c ∈ Memory.push x v m → c ∈ m ∨ c = (x, v) ∧ v ≠ Config.unlistedByte := by
    intro m hm
    unfold Memory.push at hm
    split at hm
    · exact .inl hm
    · rename_i hv
      rcases List.mem_cons.1 hm with rfl | hm
      · exact .inr ⟨rfl, hv⟩
      · exact .inl hm
  induction m with
  | nil => exact push h
  | cons e m ih =>
    obtain ⟨a, b⟩ := e
    simp only [Memory.write] at h
    split at h
    · exact push h
    · split at h
      · rcases push h with h | h
        · exact .inl (by simp [h])
        · exact .inr h
      · rcases List.mem_cons.1 h with rfl | h
        · exact .inl (by simp)
        · rcases ih h with h | h
          · exact .inl (by simp [h])
          · exact .inr h

theorem Memory.wf_push {m : Memory} {x : Nat} {v : Byte} (h : m.wf) (hx : ∀ c ∈ m, x < c.1) :
    (Memory.push x v m).wf := by
  unfold Memory.push
  split
  · exact h
  · rename_i hv
    exact ⟨List.pairwise_cons.2 ⟨hx, h.1⟩, fun c hc => by
      rcases List.mem_cons.1 hc with rfl | hc
      · exact hv
      · exact h.2 c hc⟩

/-- A write keeps the canonical form. -/
theorem Memory.wf_write {m : Memory} (h : m.wf) (x : Nat) (v : Byte) : (m.write x v).wf := by
  induction m with
  | nil => exact Memory.wf_push h (by simp)
  | cons c m ih =>
    obtain ⟨a, b⟩ := c
    have hh := Memory.wf_head h
    simp only [Memory.write]
    split
    · rename_i hx
      exact Memory.wf_push h fun e he => by
        rcases List.mem_cons.1 he with rfl | he
        · exact hx
        · exact Nat.lt_trans hx (hh e he)
    · split
      · rename_i hx
        subst hx
        exact Memory.wf_push (Memory.wf_tail h) hh
      · rename_i h1 h2
        have ht := ih (Memory.wf_tail h)
        refine ⟨List.pairwise_cons.2 ⟨fun e he => ?_, ht.1⟩, fun e he => ?_⟩
        · rcases Memory.mem_write he with he | ⟨rfl, -⟩
          · exact hh e he
          · exact Nat.lt_of_le_of_ne (Nat.le_of_not_lt h1) (Ne.symm h2)
        · rcases List.mem_cons.1 he with rfl | he
          · exact h.2 _ (by simp)
          · exact ht.2 e he

/-! ### Little-endian accesses -/

/-- What a little-endian read gives is bounded by its width. -/
theorem Memory.readLE_lt (m : Memory) (x n : Nat) : m.readLE x n < 256 ^ n := by
  induction n generalizing x with
  | zero => simp [Memory.readLE]
  | succ n ih =>
    have hb := (m.read x).isLt
    have hr := ih (x + 1)
    simp only [Memory.readLE, Nat.pow_succ]
    omega

/-- Byte `k` of a little-endian read is the byte at `x + k` (R54). -/
theorem Memory.readLE_byte (m : Memory) (x n k : Nat) (hk : k < n) :
    m.readLE x n / 256 ^ k % 256 = (m.read (x + k)).toNat := by
  induction n generalizing x k with
  | zero => omega
  | succ n ih =>
    have hb : (m.read x).toNat < 256 := (m.read x).isLt
    simp only [Memory.readLE]
    cases k with
    | zero => simp only [Nat.pow_zero, Nat.div_one, Nat.add_zero]; omega
    | succ k =>
      have h1 : ((m.read x).toNat + 256 * m.readLE (x + 1) n) / 256 ^ (k + 1) = m.readLE (x + 1) n / 256 ^ k := by
        rw [Nat.pow_succ, Nat.mul_comm (256 ^ k), ← Nat.div_div_eq_div_mul]
        congr 1
        omega
      rw [h1, ih (x + 1) k (by omega), Nat.add_right_comm, Nat.add_assoc]

/-- A little-endian read depends on its own bytes only. -/
theorem Memory.readLE_congr {m m' : Memory} {x y n : Nat} (h : ∀ k, k < n → m.read (x + k) = m'.read (y + k)) :
    m.readLE x n = m'.readLE y n := by
  induction n generalizing x y with
  | zero => rfl
  | succ n ih =>
    have h0 := h 0 (by omega)
    simp only [Nat.add_zero] at h0
    simp only [Memory.readLE, h0]
    rw [ih (y := y + 1) fun k hk => by
      have := h (k + 1) (by omega)
      rwa [Nat.add_comm k 1, ← Nat.add_assoc, ← Nat.add_assoc] at this]

/-- The value whose bytes memory holds is what a little-endian read gives. -/
theorem Memory.readLE_eq {m : Memory} {x n v : Nat} (h : ∀ k, k < n → (m.read (x + k)).toNat = v / 256 ^ k % 256) :
    m.readLE x n = v % 256 ^ n := by
  induction n generalizing x v with
  | zero => simp [Memory.readLE, Nat.mod_one]
  | succ n ih =>
    have h0 := h 0 (by omega)
    simp only [Nat.add_zero, Nat.pow_zero, Nat.div_one] at h0
    have ht : m.readLE (x + 1) n = v / 256 % 256 ^ n := ih fun k hk => by
      have := h (k + 1) (by omega)
      rw [Nat.add_right_comm, Nat.add_assoc, this, Nat.pow_succ, Nat.mul_comm (256 ^ k), ← Nat.div_div_eq_div_mul]
    rw [Memory.readLE, h0, ht, Nat.pow_succ, Nat.mul_comm (256 ^ n), Nat.mod_mul]

theorem Memory.wf_writeLE {m : Memory} (h : m.wf) (x n v : Nat) : (m.writeLE x n v).wf := by
  induction n generalizing m x v with
  | zero => exact h
  | succ n ih => exact ih (Memory.wf_write h x _) ..

/-- A little-endian write leaves every byte outside it alone. -/
theorem Memory.read_writeLE_ne (m : Memory) (x n v : Nat) {y : Nat} (hy : y < x ∨ x + n ≤ y) :
    (m.writeLE x n v).read y = m.read y := by
  induction n generalizing m x v with
  | zero => rfl
  | succ n ih => rw [Memory.writeLE, ih _ _ _ (by omega), Memory.read_write_ne m (by omega)]

/-- Byte `k` of what a little-endian write leaves is byte `k` of the value (R54). -/
theorem Memory.read_writeLE {m : Memory} (h : m.wf) (x n v k : Nat) (hk : k < n) :
    ((m.writeLE x n v).read (x + k)).toNat = v / 256 ^ k % 256 := by
  induction n generalizing m x v k with
  | zero => omega
  | succ n ih =>
    rw [Memory.writeLE]
    cases k with
    | zero =>
      rw [Memory.read_writeLE_ne _ _ _ _ (by omega), Memory.read_write h]
      simp
    | succ k =>
      have := ih (Memory.wf_write h x (BitVec.ofNat 8 v)) (x + 1) (v / 256) k (by omega)
      rw [Nat.add_right_comm, Nat.add_assoc] at this
      rw [this, Nat.pow_succ, Nat.mul_comm (256 ^ k), ← Nat.div_div_eq_div_mul]

theorem Memory.mem_writeLE {m : Memory} {x n v : Nat} {c : Host.Cell} (h : c ∈ m.writeLE x n v) :
    c ∈ m ∨ x ≤ c.1 ∧ c.1 < x + n := by
  induction n generalizing m x v with
  | zero => exact .inl h
  | succ n ih =>
    rcases ih h with h | h
    · rcases Memory.mem_write h with h | ⟨rfl, -⟩
      · exact .inl h
      · exact .inr ⟨by omega, by omega⟩
    · exact .inr ⟨by omega, by omega⟩

/-! ### Placing bytes -/

theorem Memory.wf_place {m : Memory} (h : m.wf) (x : Nat) (bs : List Byte) : (m.place x bs).wf := by
  induction bs generalizing m x with
  | nil => exact h
  | cons b bs ih => exact ih (Memory.wf_write h x b) _

theorem Memory.read_place_ne (m : Memory) (x : Nat) (bs : List Byte) {y : Nat} (hy : y < x ∨ x + bs.length ≤ y) :
    (m.place x bs).read y = m.read y := by
  induction bs generalizing m x with
  | nil => rfl
  | cons b bs ih =>
    simp only [List.length_cons] at hy
    rw [Memory.place, ih _ _ (by omega), Memory.read_write_ne m (by omega)]

theorem Memory.read_place {m : Memory} (h : m.wf) (x : Nat) (bs : List Byte) (k : Nat) (hk : k < bs.length) :
    (m.place x bs).read (x + k) = bs[k] := by
  induction bs generalizing m x k with
  | nil => simp at hk
  | cons b bs ih =>
    rw [Memory.place]
    cases k with
    | zero => rw [Memory.read_place_ne _ _ _ (by omega), Memory.read_write h]; simp
    | succ k =>
      have := ih (Memory.wf_write h x b) (x + 1) k (by simpa using hk)
      rw [Nat.add_right_comm, Nat.add_assoc] at this
      simpa using this

end Sys2Proof.Machine
end

