-- ==== Sys2Proof/Laws/Decode.lean ====
section
/-! SUPPORT. The fields of an encoded word, and the decoder on the opcode map. -/

namespace Sys2Proof

@[simp] theorem regField_val (w : InsnWord) (lo : Nat) : (regField w lo).val = w.toNat / 2 ^ lo % 32 := rfl

theorem opField_val (w : InsnWord) : (opField w).val = w.toNat / 2 ^ 27 := by
  have := w.isLt
  simp only [opField, regField_val]
  omega

theorem immField_lt (w : InsnWord) : immField w < 2 ^ 22 := Nat.mod_lt _ (by decide)

/-- The opcode map is onto its own opcodes (R87, R88). -/
theorem instrOf_opcode (op : Fin 32) (d a b : Reg) (imm : Nat) : (instrOf op d a b imm).opcode = op := by
  unfold instrOf
  split
  case h_33 n h => omega
  all_goals rfl

/-- Every entry of the map is well formed when the immediate fits its field (R83). -/
theorem instrOf_wellFormed (op : Fin 32) (d a b : Reg) {imm : Nat} (h : imm < 2 ^ 22) :
    (instrOf op d a b imm).wellFormed = true := by
  unfold instrOf
  split
  case h_33 n h => omega
  all_goals first | rfl | exact decide_eq_true h

@[simp] theorem decode_opcode (w : InsnWord) : (decode w).opcode = opField w := instrOf_opcode ..

theorem decode_wellFormed (w : InsnWord) : (decode w).wellFormed = true := instrOf_wellFormed _ _ _ _ (immField_lt w)

/-! ### Fields of the four encodings -/

section Fields
variable (op : Fin 32) (d a b : Reg)

theorem encodeN_toNat : (encodeN op).toNat = op.val * 2 ^ 27 := by
  simp only [encodeN, BitVec.toNat_ofNat]
  omega

theorem encodeR3_toNat : (encodeR3 op d a b).toNat =
    op.val * 2 ^ 27 + d.val * 2 ^ 22 + a.val * 2 ^ 17 + b.val * 2 ^ 12 := by
  simp only [encodeR3, BitVec.toNat_ofNat]
  omega

theorem encodeR2_toNat : (encodeR2 op d a).toNat = op.val * 2 ^ 27 + d.val * 2 ^ 22 + a.val * 2 ^ 17 := by
  simp only [encodeR2, BitVec.toNat_ofNat]
  omega

theorem encodeI_toNat {imm : Nat} (h : imm < 2 ^ 22) :
    (encodeI op d imm).toNat = op.val * 2 ^ 27 + d.val * 2 ^ 22 + imm := by
  simp only [encodeI, BitVec.toNat_ofNat]
  omega

theorem decode_encodeN : decode (encodeN op) = instrOf op 0 0 0 0 := by
  have h := encodeN_toNat op
  have e1 : opField (encodeN op) = op := Fin.ext (by rw [opField_val, h]; omega)
  have e2 : dField (encodeN op) = 0 := Fin.ext (by simp only [dField, regField_val, h]; omega)
  have e3 : aField (encodeN op) = 0 := Fin.ext (by simp only [aField, regField_val, h]; omega)
  have e4 : bField (encodeN op) = 0 := Fin.ext (by simp only [bField, regField_val, h]; omega)
  have e5 : immField (encodeN op) = 0 := by simp only [immField, h]; omega
  simp only [decode, e1, e2, e3, e4, e5]

theorem decode_encodeR3 : decode (encodeR3 op d a b) = instrOf op d a b (immField (encodeR3 op d a b)) := by
  have h := encodeR3_toNat op d a b
  have e1 : opField (encodeR3 op d a b) = op := Fin.ext (by rw [opField_val, h]; omega)
  have e2 : dField (encodeR3 op d a b) = d := Fin.ext (by simp only [dField, regField_val, h]; omega)
  have e3 : aField (encodeR3 op d a b) = a := Fin.ext (by simp only [aField, regField_val, h]; omega)
  have e4 : bField (encodeR3 op d a b) = b := Fin.ext (by simp only [bField, regField_val, h]; omega)
  simp only [decode, e1, e2, e3, e4]

theorem decode_encodeR2 : decode (encodeR2 op d a) =
    instrOf op d a (bField (encodeR2 op d a)) (immField (encodeR2 op d a)) := by
  have h := encodeR2_toNat op d a
  have e1 : opField (encodeR2 op d a) = op := Fin.ext (by rw [opField_val, h]; omega)
  have e2 : dField (encodeR2 op d a) = d := Fin.ext (by simp only [dField, regField_val, h]; omega)
  have e3 : aField (encodeR2 op d a) = a := Fin.ext (by simp only [aField, regField_val, h]; omega)
  simp only [decode, e1, e2, e3]

theorem decode_encodeI {imm : Nat} (hi : imm < 2 ^ 22) : decode (encodeI op d imm) =
    instrOf op d (aField (encodeI op d imm)) (bField (encodeI op d imm)) imm := by
  have h := encodeI_toNat op d hi
  have e1 : opField (encodeI op d imm) = op := Fin.ext (by rw [opField_val, h]; omega)
  have e2 : dField (encodeI op d imm) = d := Fin.ext (by simp only [dField, regField_val, h]; omega)
  have e5 : immField (encodeI op d imm) = imm := by simp only [immField, h]; omega
  simp only [decode, e1, e2, e5]

end Fields

/-! ### Bytes of a word -/

theorem wordOfBytes_toNat (b0 b1 b2 b3 : Byte) : (wordOfBytes b0 b1 b2 b3).toNat =
    b0.toNat + 2 ^ 8 * b1.toNat + 2 ^ 16 * b2.toNat + 2 ^ 24 * b3.toNat := by
  have := b0.isLt; have := b1.isLt; have := b2.isLt; have := b3.isLt
  simp only [wordOfBytes, BitVec.toNat_ofNat]
  omega

/-- The four bytes of a word form it again (R54). -/
theorem wordOfBytes_bytes (w : InsnWord) :
    wordOfBytes (BitVec.ofNat 8 w.toNat) (BitVec.ofNat 8 (w.toNat / 2 ^ 8)) (BitVec.ofNat 8 (w.toNat / 2 ^ 16))
      (BitVec.ofNat 8 (w.toNat / 2 ^ 24)) = w := by
  have := w.isLt
  apply BitVec.eq_of_toNat_eq
  simp only [wordOfBytes_toNat, BitVec.toNat_ofNat]
  omega

theorem decodeBytes_bytesOfWord (w : InsnWord) (rest : List Byte) :
    decodeBytes (bytesOfWord w ++ rest) = .ok (decode w, rest) := by
  simp only [bytesOfWord, List.cons_append, List.nil_append, decodeBytes, wordOfBytes_bytes]

end Sys2Proof
end

