-- ==== Sys2Proof/Laws/Alu.lean ====
section
/-! SUPPORT. What the ALU operations give, as numbers and as bits. -/

namespace Sys2Proof.Machine.Alu

theorem add_eq (p q : Word) : add p q = p + q := by
  apply BitVec.eq_of_toNat_eq
  simp [add, BitVec.toNat_add]

theorem sub_eq (p q : Word) : sub p q = p - q := by
  apply BitVec.eq_of_toInt_eq
  rw [sub, BitVec.toInt_ofInt, BitVec.toInt_sub, BitVec.toInt_eq_toNat_bmod, BitVec.toInt_eq_toNat_bmod]
  exact Int.bmod_sub_bmod.symm.trans (by rw [Int.sub_bmod_bmod])

theorem mul_eq (p q : Word) : mul p q = p * q := by
  apply BitVec.eq_of_toNat_eq
  simp [mul, BitVec.toNat_mul]

theorem zero_divisor {q : Word} (h : q = 0) : isZeroDivisor q = true := decide_eq_true h

theorem nonzero_divisor {q : Word} (h : q ≠ 0) : isZeroDivisor q = false := decide_eq_false h

theorem toNat_ne_zero {q : Word} (h : q ≠ 0) : q.toNat ≠ 0 := fun h0 => h (BitVec.eq_of_toNat_eq (by simpa using h0))

/-- `udiv`: a zero divisor is a fault, any other gives the floor of the quotient (R125). -/
theorem udiv_cases (p q : Word) : (q = 0 ∧ udiv p q = .error .divideByZero) ∨
    (q ≠ 0 ∧ ∃ v, udiv p q = .ok v ∧ v.toNat = p.toNat / q.toNat) := by
  by_cases h : q = 0
  · exact .inl ⟨h, by rw [udiv, zero_divisor h]; rfl⟩
  · refine .inr ⟨h, _, by rw [udiv, nonzero_divisor h]; rfl, ?_⟩
    have := Nat.div_le_self p.toNat q.toNat
    have := p.isLt
    rw [BitVec.toNat_ofNat, Nat.mod_eq_of_lt (by omega)]

/-- `umod`: a zero divisor is a fault, any other gives the remainder (R126). -/
theorem umod_cases (p q : Word) : (q = 0 ∧ umod p q = .error .divideByZero) ∨
    (q ≠ 0 ∧ ∃ v, umod p q = .ok v ∧ v.toNat = p.toNat % q.toNat) := by
  by_cases h : q = 0
  · exact .inl ⟨h, by rw [umod, zero_divisor h]; rfl⟩
  · refine .inr ⟨h, _, by rw [umod, nonzero_divisor h]; rfl, ?_⟩
    have := p.isLt
    have hd := Nat.div_add_mod p.toNat q.toNat
    rw [BitVec.toNat_ofNat, Nat.mod_eq_of_lt (by omega)]
    omega

/-- The overflow case in patterns (R120). -/
theorem isDivOverflow_iff (p q : Word) :
    isDivOverflow p q = true ↔ p = 0x8000000000000000 ∧ q = 0xFFFFFFFFFFFFFFFF := by
  have hp : p.toInt = -2 ^ 63 ↔ p = 0x8000000000000000 :=
    ⟨fun h => BitVec.eq_of_toInt_eq (by rw [h]; decide), fun h => by rw [h]; decide⟩
  have hq : q.toInt = -1 ↔ q = 0xFFFFFFFFFFFFFFFF :=
    ⟨fun h => BitVec.eq_of_toInt_eq (by rw [h]; decide), fun h => by rw [h]; decide⟩
  simp only [isDivOverflow, decide_eq_true_eq, hp, hq]

/-- Outside the overflow case the truncated quotient fits in 64 signed bits. -/
theorem toInt_tdiv (p q : Word) (h : ¬ (p.toInt = -2 ^ 63 ∧ q.toInt = -1)) :
    (BitVec.ofInt 64 (p.toInt.tdiv q.toInt)).toInt = p.toInt.tdiv q.toInt := by
  have hp := BitVec.le_toInt p
  have hp' := BitVec.toInt_lt (x := p)
  rw [BitVec.toInt_ofInt]
  have habs : (p.toInt.tdiv q.toInt).natAbs = p.toInt.natAbs / q.toInt.natAbs := Int.natAbs_tdiv ..
  have hle := Nat.div_le_self p.toInt.natAbs q.toInt.natAbs
  have hstrict : p.toInt.tdiv q.toInt ≠ 2 ^ 63 := by
    intro heq
    by_cases h1 : q.toInt.natAbs = 1
    · rcases Int.natAbs_eq q.toInt with hq | hq <;> rw [h1] at hq
      · rw [hq] at heq; simp at heq; omega
      · rw [hq] at heq
        have : p.toInt.tdiv (-((1 : Nat) : Int)) = -p.toInt := by simp
        rw [this] at heq
        exact h ⟨by omega, by omega⟩
    · have hn : p.toInt.natAbs / q.toInt.natAbs = 2 ^ 63 := by rw [← habs, heq]; rfl
      by_cases h0 : q.toInt.natAbs = 0
      · rw [h0] at hn; simp at hn
      · have h2 : 2 ≤ q.toInt.natAbs := by omega
        have h3 := Nat.div_le_div_left (a := p.toInt.natAbs) h2 (by decide)
        rw [hn] at h3
        omega
  apply Int.bmod_eq_of_le <;> omega

/-- `sdiv` (R120, R128). -/
theorem sdiv_cases (p q : Word) : (q = 0 ∧ sdiv p q = .error .divideByZero) ∨
    (q ≠ 0 ∧ isDivOverflow p q = true ∧ sdiv p q = .error .overflow) ∨
    (q ≠ 0 ∧ isDivOverflow p q = false ∧ ∃ v, sdiv p q = .ok v ∧ v.toInt = p.toInt.tdiv q.toInt) := by
  by_cases h : q = 0
  · exact .inl ⟨h, by rw [sdiv, zero_divisor h]; rfl⟩
  · by_cases ho : isDivOverflow p q = true
    · exact .inr (.inl ⟨h, ho, by rw [sdiv, nonzero_divisor h, ho]; rfl⟩)
    · refine .inr (.inr ⟨h, by simpa using ho, _, by rw [sdiv, nonzero_divisor h, Bool.eq_false_iff.2 ho]; rfl, toInt_tdiv p q ?_⟩)
      simpa [isDivOverflow] using ho

/-- `smod` (R121, R128). -/
theorem smod_cases (p q : Word) : (q = 0 ∧ smod p q = .error .divideByZero) ∨
    (q ≠ 0 ∧ isDivOverflow p q = true ∧ smod p q = .error .overflow) ∨
    (q ≠ 0 ∧ isDivOverflow p q = false ∧ ∃ v, smod p q = .ok v ∧
      v.toInt = p.toInt - q.toInt * p.toInt.tdiv q.toInt) := by
  by_cases h : q = 0
  · exact .inl ⟨h, by rw [smod, zero_divisor h]; rfl⟩
  · by_cases ho : isDivOverflow p q = true
    · exact .inr (.inl ⟨h, ho, by rw [smod, nonzero_divisor h, ho]; rfl⟩)
    · refine .inr (.inr ⟨h, by simpa using ho, _, by rw [smod, nonzero_divisor h, Bool.eq_false_iff.2 ho]; rfl, ?_⟩)
      have hm : p.toInt - q.toInt * p.toInt.tdiv q.toInt = p.toInt.tmod q.toInt := by
        rw [Int.tmod_def]
      have hq := BitVec.le_toInt q
      have hq' := BitVec.toInt_lt (x := q)
      have habs : (p.toInt.tmod q.toInt).natAbs = p.toInt.natAbs % q.toInt.natAbs := Int.natAbs_tmod ..
      have h0 : q.toInt ≠ 0 := fun h0 => h (BitVec.eq_of_toInt_eq (by rw [h0]; rfl))
      have hlt := Nat.mod_lt p.toInt.natAbs (y := q.toInt.natAbs) (by omega)
      rw [hm, BitVec.toInt_ofInt]
      apply Int.bmod_eq_of_le <;> omega

theorem shl_long {p q : Word} (h : 64 ≤ q.toNat) : shl p q = 0 := by simp [shl, isLongShift, h]

theorem shr_long {p q : Word} (h : 64 ≤ q.toNat) : shr p q = 0 := by simp [shr, isLongShift, h]

theorem shl_short {p q : Word} (h : q.toNat < 64) : shl p q = p <<< q.toNat := by
  apply BitVec.eq_of_toNat_eq
  simp [shl, isLongShift, Nat.not_le.2 h, BitVec.toNat_shiftLeft, Nat.shiftLeft_eq]

theorem shr_short {p q : Word} (h : q.toNat < 64) : shr p q = p >>> q.toNat := by
  apply BitVec.eq_of_toNat_eq
  have := Nat.div_le_self p.toNat (2 ^ q.toNat)
  have := p.isLt
  simp only [shr, isLongShift, Nat.not_le.2 h, decide_false, Bool.false_eq_true, if_false, BitVec.toNat_ofNat,
    BitVec.toNat_ushiftRight, Nat.shiftRight_eq_div_pow]
  exact Nat.mod_eq_of_lt (by omega)

end Sys2Proof.Machine.Alu
end

