-- ==== Sys2Proof/Laws/Exec.lean ====
section
/-! SUPPORT. What the shared operations and the instructions can do: one inversion lemma each. -/

namespace Sys2Proof.Machine

/-! ### The memory bus -/

theorem State.inRange_iff (s : State) (addr : Word) (n : Nat) :
    s.inRange addr n = true ↔ addr.toNat + n ≤ s.memSize.val := decide_eq_true_iff

theorem State.not_inRange_iff (s : State) (addr : Word) (n : Nat) :
    s.inRange addr n = false ↔ s.memSize.val < addr.toNat + n := by
  rw [Bool.eq_false_iff, ne_eq, State.inRange_iff, Nat.not_le]

/-- A load moves the eight bytes when they are in range and raises MemoryFault otherwise (R53, R55). -/
theorem State.busLoad_cases (s : State) (addr : Word) :
    (addr.toNat + 8 ≤ s.memSize.val ∧ ∃ v, s.busLoad addr = .ok v ∧ v.toNat = s.mem.readLE addr.toNat 8) ∨
    (s.memSize.val < addr.toNat + 8 ∧ s.busLoad addr = .error (.memoryFault .load addr)) := by
  by_cases h : s.inRange addr Config.dataBytes = true
  · refine .inl ⟨(s.inRange_iff ..).1 h, _, by rw [State.busLoad, if_pos h], ?_⟩
    rw [BitVec.toNat_ofNat]
    exact Nat.mod_eq_of_lt (Memory.readLE_lt ..)
  · exact .inr ⟨(s.not_inRange_iff ..).1 (Bool.eq_false_iff.2 h), by rw [State.busLoad, if_neg h]⟩

/-- A fetch moves the four bytes when they are in range and raises MemoryFault otherwise (R53, R56). -/
theorem State.busFetch_cases (s : State) (addr : Word) :
    (addr.toNat + 4 ≤ s.memSize.val ∧ ∃ w, s.busFetch addr = .ok w ∧ w.toNat = s.mem.readLE addr.toNat 4) ∨
    (s.memSize.val < addr.toNat + 4 ∧ s.busFetch addr = .error (.memoryFault .fetch addr)) := by
  by_cases h : s.inRange addr Config.insnBytes = true
  · refine .inl ⟨(s.inRange_iff ..).1 h, _, by rw [State.busFetch, if_pos h], ?_⟩
    rw [BitVec.toNat_ofNat]
    exact Nat.mod_eq_of_lt (Memory.readLE_lt ..)
  · exact .inr ⟨(s.not_inRange_iff ..).1 (Bool.eq_false_iff.2 h), by rw [State.busFetch, if_neg h]⟩

/-- The state after a store that is in range. -/
def State.stored (s : State) (addr v : Word) : State := { s with mem := s.mem.writeLE addr.toNat 8 v.toNat }

section Stored
variable (s : State) (addr v : Word)

@[simp] theorem State.stored_regs : (s.stored addr v).regs = s.regs := rfl
@[simp] theorem State.reg_stored (r : Reg) : (s.stored addr v).reg r = s.reg r := rfl
@[simp] theorem State.pc_stored : (s.stored addr v).pc = s.pc := rfl
@[simp] theorem State.stored_mem : (s.stored addr v).mem = s.mem.writeLE addr.toNat 8 v.toNat := rfl
@[simp] theorem State.stored_memSize : (s.stored addr v).memSize = s.memSize := rfl
@[simp] theorem State.stored_run : (s.stored addr v).run = s.run := rfl
@[simp] theorem State.stored_fetched : (s.stored addr v).fetched = s.fetched := rfl
@[simp] theorem State.stored_diag : (s.stored addr v).diag = s.diag := rfl

theorem State.stored_byteAt_ne {y : Nat} (h : y < addr.toNat ∨ addr.toNat + 8 ≤ y) :
    (s.stored addr v).byteAt y = s.byteAt y := Memory.read_writeLE_ne _ _ _ _ h

theorem State.stored_byteAt (h : s.mem.wf) {k : Nat} (hk : k < 8) :
    ((s.stored addr v).byteAt (addr.toNat + k)).toNat = v.toNat / 256 ^ k % 256 := Memory.read_writeLE h _ _ _ _ hk

end Stored

/-- A store writes the eight bytes when they are in range and raises MemoryFault otherwise (R53, R55). -/
theorem State.busStore_cases (s : State) (addr v : Word) :
    (addr.toNat + 8 ≤ s.memSize.val ∧ s.busStore addr v = .ok (s.stored addr v)) ∨
    (s.memSize.val < addr.toNat + 8 ∧ s.busStore addr v = .error (.memoryFault .store addr)) := by
  by_cases h : s.inRange addr Config.dataBytes = true
  · exact .inl ⟨(s.inRange_iff ..).1 h, by rw [State.busStore, if_pos h]; rfl⟩
  · exact .inr ⟨(s.not_inRange_iff ..).1 (Bool.eq_false_iff.2 h), by rw [State.busStore, if_neg h]⟩

/-! ### Operand forms -/

theorem formR3Fault_ok {f : Word → Word → Except ArithReason Word} {d a b : Reg} {s : State} {v : Word}
    (h : f (s.reg a) (s.reg b) = .ok v) : formR3Fault f d a b s = .next (s.setReg d v) := by rw [formR3Fault, h]

theorem formR3Fault_error {f : Word → Word → Except ArithReason Word} {d a b : Reg} {s : State} {e : ArithReason}
    (h : f (s.reg a) (s.reg b) = .error e) : formR3Fault f d a b s = .next (s.raise (.arithmeticFault e)) := by
  rw [formR3Fault, h]

theorem formR3Fault_cases (f : Word → Word → Except ArithReason Word) (d a b : Reg) (s : State) :
    (∃ v, f (s.reg a) (s.reg b) = .ok v ∧ formR3Fault f d a b s = .next (s.setReg d v)) ∨
    (∃ e, f (s.reg a) (s.reg b) = .error e ∧ formR3Fault f d a b s = .next (s.raise (.arithmeticFault e))) := by
  cases h : f (s.reg a) (s.reg b) with
  | ok v => exact .inl ⟨v, rfl, formR3Fault_ok h⟩
  | error e => exact .inr ⟨e, rfl, formR3Fault_error h⟩

/-- `ld` (R180). -/
theorem execLd_cases (d a : Reg) (s : State) :
    ((s.reg a).toNat + 8 ≤ s.memSize.val ∧ ∃ v : Word, v.toNat = s.mem.readLE (s.reg a).toNat 8 ∧
      execLd d a s = .next (s.setReg d v)) ∨
    (s.memSize.val < (s.reg a).toNat + 8 ∧ execLd d a s = .next (s.raise (.memoryFault .load (s.reg a)))) := by
  rcases s.busLoad_cases (s.reg a) with ⟨h, v, hv, hn⟩ | ⟨h, he⟩
  · exact .inl ⟨h, v, hn, by rw [execLd, hv]⟩
  · exact .inr ⟨h, by rw [execLd, he]⟩

/-- `st` (R181). -/
theorem execSt_cases (d a : Reg) (s : State) :
    ((s.reg d).toNat + 8 ≤ s.memSize.val ∧ execSt d a s = .next (s.stored (s.reg d) (s.reg a))) ∨
    (s.memSize.val < (s.reg d).toNat + 8 ∧ execSt d a s = .next (s.raise (.memoryFault .store (s.reg d)))) := by
  rcases s.busStore_cases (s.reg d) (s.reg a) with ⟨h, hv⟩ | ⟨h, he⟩
  · exact .inl ⟨h, by rw [execSt, hv]⟩
  · exact .inr ⟨h, by rw [execSt, he]⟩

/-- `jnz` (R200). -/
theorem execJnz_cases (d a : Reg) (s : State) :
    (s.reg a ≠ 0 ∧ execJnz d a s = .next (s.setPc (s.reg d))) ∨ (s.reg a = 0 ∧ execJnz d a s = .next s) := by
  by_cases h : s.reg a = 0
  · exact .inr ⟨h, by rw [execJnz, isTrue, if_neg (by simpa using h)]⟩
  · exact .inl ⟨h, by rw [execJnz, isTrue, if_pos (by simpa using h)]⟩

/-! ### Every instruction -/

/-- The destination register of an instruction that has one (R201). -/
def destReg : Instr → Option Reg
  | .sdiv d _ _ | .smod d _ _ | .add d _ _ | .sub d _ _ | .mul d _ _ | .udiv d _ _ | .umod d _ _ => some d
  | .fadd d _ _ | .fsub d _ _ | .fmul d _ _ | .fdiv d _ _ | .ftoi d _ | .itof d _ => some d
  | .and d _ _ | .or d _ _ | .xor d _ _ | .not d _ | .shl d _ _ | .shr d _ _ => some d
  | .ld d _ | .ldi d _ | .mov d _ => some d
  | .nop | .sys .. | .st .. | .jnz .. => none
  | .reserved26 | .reserved27 | .reserved28 | .reserved29 | .reserved30 | .reserved31 => none

/-- The causes an instruction can raise in a state, each with its condition (R228). -/
def MayRaise (i : Instr) (s : State) (c : FaultCause) : Prop :=
  match i with
  | .sdiv _ a b | .smod _ a b =>
    (s.reg b = 0 ∧ c = .arithmeticFault .divideByZero) ∨
    (s.reg b ≠ 0 ∧ isDivOverflow (s.reg a) (s.reg b) = true ∧ c = .arithmeticFault .overflow)
  | .udiv _ _ b | .umod _ _ b => s.reg b = 0 ∧ c = .arithmeticFault .divideByZero
  | .ld _ a => s.memSize.val < (s.reg a).toNat + 8 ∧ c = .memoryFault .load (s.reg a)
  | .st d _ => s.memSize.val < (s.reg d).toNat + 8 ∧ c = .memoryFault .store (s.reg d)
  | .reserved26 | .reserved27 | .reserved28 | .reserved29 | .reserved30 | .reserved31 => c = .reservedOpcode i.opcode
  | .nop | .sys .. | .add .. | .sub .. | .mul .. | .fadd .. | .fsub .. | .fmul .. | .fdiv .. | .ftoi .. | .itof ..
  | .and .. | .or .. | .xor .. | .not .. | .shl .. | .shr .. | .ldi .. | .mov .. | .jnz .. => False

/-- What an instruction can do to a state: write its destination, change nothing (`nop`, `jnz` not taken), jump
(`jnz`), store, send a hypercall, or raise a fault. -/
inductive Effect (i : Instr) (s : State) : State → Prop where
  | write {d : Reg} (v : Word) (h : destReg i = some d) (hc : ∀ c, ¬ MayRaise i s c) : Effect i s (s.setReg d v)
  | nop (h : i = .nop) : Effect i s s
  | notTaken {d a : Reg} (h : i = .jnz d a) (hz : s.reg a = 0) : Effect i s s
  | taken {d a : Reg} (h : i = .jnz d a) (hz : s.reg a ≠ 0) : Effect i s (s.setPc (s.reg d))
  | store {d a : Reg} (h : i = .st d a) (hr : (s.reg d).toNat + 8 ≤ s.memSize.val) :
    Effect i s (s.stored (s.reg d) (s.reg a))
  | hypercall {d : Reg} {imm : Nat} (h : i = .sys d imm) : Effect i s (s.hypercall ⟨BitVec.ofNat 64 imm, s.reg d⟩)
  | raised (c : FaultCause) (h : MayRaise i s c) : Effect i s (s.raise c)

theorem effect_sdiv {i : Instr} {d a b : Reg} (f : Word → Word → Except ArithReason Word) (s : State)
    (hd : destReg i = some d)
    (hm : ∀ c, MayRaise i s c ↔ (s.reg b = 0 ∧ c = .arithmeticFault .divideByZero) ∨
      (s.reg b ≠ 0 ∧ isDivOverflow (s.reg a) (s.reg b) = true ∧ c = .arithmeticFault .overflow))
    (hf : (s.reg b = 0 ∧ f (s.reg a) (s.reg b) = .error .divideByZero) ∨
      (s.reg b ≠ 0 ∧ isDivOverflow (s.reg a) (s.reg b) = true ∧ f (s.reg a) (s.reg b) = .error .overflow) ∨
      (s.reg b ≠ 0 ∧ isDivOverflow (s.reg a) (s.reg b) = false ∧ ∃ v, f (s.reg a) (s.reg b) = .ok v)) :
    ∃ t, formR3Fault f d a b s = .next t ∧ Effect i s t := by
  rcases hf with ⟨h, e⟩ | ⟨h, ho, e⟩ | ⟨h, ho, v, e⟩
  · exact ⟨_, formR3Fault_error e, .raised _ ((hm _).2 (.inl ⟨h, rfl⟩))⟩
  · exact ⟨_, formR3Fault_error e, .raised _ ((hm _).2 (.inr ⟨h, ho, rfl⟩))⟩
  · refine ⟨_, formR3Fault_ok e, .write v hd fun c hc => ?_⟩
    rcases (hm c).1 hc with ⟨h0, -⟩ | ⟨-, h1, -⟩
    · exact h h0
    · rw [ho] at h1; cases h1

theorem effect_udiv {i : Instr} {d a b : Reg} (f : Word → Word → Except ArithReason Word) (s : State)
    (hd : destReg i = some d) (hm : ∀ c, MayRaise i s c ↔ s.reg b = 0 ∧ c = .arithmeticFault .divideByZero)
    (hf : (s.reg b = 0 ∧ f (s.reg a) (s.reg b) = .error .divideByZero) ∨
      (s.reg b ≠ 0 ∧ ∃ v, f (s.reg a) (s.reg b) = .ok v)) :
    ∃ t, formR3Fault f d a b s = .next t ∧ Effect i s t := by
  rcases hf with ⟨h, e⟩ | ⟨h, v, e⟩
  · exact ⟨_, formR3Fault_error e, .raised _ ((hm _).2 ⟨h, rfl⟩)⟩
  · exact ⟨_, formR3Fault_ok e, .write v hd fun c hc => h ((hm c).1 hc).1⟩

/-- Every instruction answers a next state, with one of the effects. -/
theorem exec_cases (i : Instr) (s : State) : ∃ t, exec i s = .next t ∧ Effect i s t := by
  cases i with
  | nop => exact ⟨s, rfl, .nop rfl⟩
  | sys d imm => exact ⟨_, rfl, .hypercall rfl⟩
  | sdiv d a b =>
    refine effect_sdiv Alu.sdiv s rfl (fun c => Iff.rfl) ?_
    rcases Alu.sdiv_cases (s.reg a) (s.reg b) with h | h | ⟨h, ho, v, e, -⟩
    · exact .inl h
    · exact .inr (.inl h)
    · exact .inr (.inr ⟨h, ho, v, e⟩)
  | smod d a b =>
    refine effect_sdiv Alu.smod s rfl (fun c => Iff.rfl) ?_
    rcases Alu.smod_cases (s.reg a) (s.reg b) with h | h | ⟨h, ho, v, e, -⟩
    · exact .inl h
    · exact .inr (.inl h)
    · exact .inr (.inr ⟨h, ho, v, e⟩)
  | udiv d a b =>
    refine effect_udiv Alu.udiv s rfl (fun c => Iff.rfl) ?_
    rcases Alu.udiv_cases (s.reg a) (s.reg b) with h | ⟨h, v, e, -⟩
    · exact .inl h
    · exact .inr ⟨h, v, e⟩
  | umod d a b =>
    refine effect_udiv Alu.umod s rfl (fun c => Iff.rfl) ?_
    rcases Alu.umod_cases (s.reg a) (s.reg b) with h | ⟨h, v, e, -⟩
    · exact .inl h
    · exact .inr ⟨h, v, e⟩
  | add d a b | sub d a b | mul d a b | fadd d a b | fsub d a b | fmul d a b | fdiv d a b
  | and d a b | or d a b | xor d a b | shl d a b | shr d a b =>
    exact ⟨_, rfl, .write _ rfl fun c hc => hc⟩
  | ftoi d a | itof d a | not d a | mov d a => exact ⟨_, rfl, .write _ rfl fun c hc => hc⟩
  | ldi d imm => exact ⟨_, rfl, .write _ rfl fun c hc => hc⟩
  | ld d a =>
    rcases execLd_cases d a s with ⟨h, v, -, e⟩ | ⟨h, e⟩
    · exact ⟨_, e, .write v rfl fun c hc => absurd hc.1 (Nat.not_lt.2 h)⟩
    · exact ⟨_, e, .raised _ ⟨h, rfl⟩⟩
  | st d a =>
    rcases execSt_cases d a s with ⟨h, e⟩ | ⟨h, e⟩
    · exact ⟨_, e, .store rfl h⟩
    · exact ⟨_, e, .raised _ ⟨h, rfl⟩⟩
  | jnz d a =>
    rcases execJnz_cases d a s with ⟨h, e⟩ | ⟨h, e⟩
    · exact ⟨_, e, .taken rfl h⟩
    · exact ⟨_, e, .notTaken rfl h⟩
  | reserved26 | reserved27 | reserved28 | reserved29 | reserved30 | reserved31 => exact ⟨_, rfl, .raised _ rfl⟩

/-- What an instruction leaves alone whatever it does: the size of memory, the held word, and every register but its
destination and register 31. -/
theorem Effect.frame {i : Instr} {s t : State} (h : Effect i s t) :
    t.memSize = s.memSize ∧ t.fetched = s.fetched ∧
      ∀ r, r ≠ pcReg → destReg i ≠ some r → t.reg r = s.reg r := by
  cases h with
  | write v hd hc => exact ⟨rfl, rfl, fun r _ h => by
      rw [State.reg_setReg, if_neg]
      intro e
      exact h (by rw [hd, e])⟩
  | nop h => exact ⟨rfl, rfl, fun _ _ _ => rfl⟩
  | notTaken h hz => exact ⟨rfl, rfl, fun _ _ _ => rfl⟩
  | taken h hz => exact ⟨rfl, rfl, fun r hr _ => by rw [State.reg_setPc, if_neg hr]⟩
  | store h hr => exact ⟨rfl, rfl, fun _ _ _ => rfl⟩
  | hypercall h => exact ⟨rfl, rfl, fun _ _ _ => rfl⟩
  | raised c h => exact ⟨rfl, rfl, fun r hr _ => by rw [State.reg_raise, if_neg hr]⟩

end Sys2Proof.Machine
end

