-- ==== Sys2Proof/Laws/Step.lean ====
section
/-! SUPPORT. What a step can do, and the induction over runs. -/

namespace Sys2Proof.Machine

/-- The fetch gives the word at `x[31]`, or MemoryFault (R56). -/
theorem State.fetch_cases (s : State) :
    (s.pc.toNat + 4 ≤ s.memSize.val ∧ ∃ w, s.fetch = .ok w ∧ w.toNat = s.mem.readLE s.pc.toNat 4) ∨
    (s.memSize.val < s.pc.toNat + 4 ∧ s.fetch = .error (.memoryFault .fetch s.pc)) := s.busFetch_cases s.pc

/-- The fetch of four bytes that are those of `w` gives `w`. -/
theorem State.fetch_eq {s : State} {w : InsnWord} (hr : s.pc.toNat + 4 ≤ s.memSize.val)
    (hb : ∀ k, k < 4 → (s.byteAt (s.pc.toNat + k)).toNat = w.toNat / 256 ^ k % 256) : s.fetch = .ok w := by
  rcases s.fetch_cases with ⟨-, v, hv, hn⟩ | ⟨h, -⟩
  · have hw : v = w := by
      apply BitVec.eq_of_toNat_eq
      rw [hn, Memory.readLE_eq (m := s.mem) hb]
      exact Nat.mod_eq_of_lt w.isLt
    rw [hv, hw]
  · omega

/-- The bytes of a fetched word are those memory holds. -/
theorem State.byteAt_of_fetch {s : State} {w : InsnWord} (h : s.fetch = .ok w) {k : Nat} (hk : k < 4) :
    (s.byteAt (s.pc.toNat + k)).toNat = w.toNat / 256 ^ k % 256 := by
  rcases s.fetch_cases with ⟨-, v, hv, hn⟩ | ⟨-, he⟩
  · rw [hv] at h
    cases h
    rw [hn, Memory.readLE_byte _ _ _ _ hk]
    rfl
  · rw [he] at h
    cases h

/-- A step of a running core: a failed fetch, or the effect of the fetched instruction after the advance (R91). -/
theorem step_running {s : State} (h : s.run = .running) :
    (s.memSize.val < s.pc.toNat + 4 ∧ step s = .next (s.fetchFault (.memoryFault .fetch s.pc))) ∨
    (s.pc.toNat + 4 ≤ s.memSize.val ∧ ∃ w u, s.fetch = .ok w ∧ exec (decode w) (s.advance w) = .next u ∧
      Effect (decode w) (s.advance w) u ∧ step s = .next u.endStep) := by
  rcases s.fetch_cases with ⟨hr, w, hw, -⟩ | ⟨hr, he⟩
  · obtain ⟨u, hu, heff⟩ := exec_cases (decode w) (s.advance w)
    refine .inr ⟨hr, w, u, hw, hu, heff, ?_⟩
    simp only [step, h, hw, hu, retire]
  · exact .inl ⟨hr, by simp only [step, h, he]⟩

theorem step_not_running {s : State} (h : s.run ≠ .running) : step s = .fault .notRunning := by
  unfold step
  split
  · exact absurd ‹_› h
  all_goals rfl

/-- Every step that gives a next state started in `running`. -/
theorem running_of_step {s t : State} (h : step s = .next t) : s.run = .running := by
  by_cases hr : s.run = .running
  · exact hr
  · rw [step_not_running hr] at h
    cases h

/-- What holds at the start of a run and is kept by every step holds of every reached state. -/
theorem Reaches.induct {P : State → Prop} {s : State} (h0 : P s)
    (hs : ∀ t u, P t → step t = .next u → P u) {t : State} (h : Reaches s t) : P t := by
  induction h with
  | refl => exact h0
  | tail _ hstep ih => exact hs _ _ ih hstep

end Sys2Proof.Machine
end

