-- ==== Sys2Proof/Laws/Binary64.lean ====
section
/-! SUPPORT. Rounding: `roundLow` gives the nearest pattern, the even one of two, and overflows exactly from half a
unit above the largest finite value; and what a pattern's bits 62:0 stand for. -/

namespace Sys2Proof.Machine

/-! ### Rounding to an integer -/

/-- `num / den` rounded is the quotient or one more; which, and when, by the remainder. -/
theorem roundHalfEven_cases (num : Nat) {den : Nat} (hd : 0 < den) :
    ∃ q r, num = den * q + r ∧ r < den ∧
      ((2 * r < den ∧ roundHalfEven num den = q) ∨ (den < 2 * r ∧ roundHalfEven num den = q + 1) ∨
        (2 * r = den ∧ roundHalfEven num den = q + q % 2)) := by
  refine ⟨num / den, num % den, (Nat.div_add_mod num den).symm, Nat.mod_lt _ hd, ?_⟩
  unfold roundHalfEven
  rcases Nat.lt_trichotomy (2 * (num % den)) den with h | h | h
  · exact .inl ⟨h, by simp only [if_pos h]⟩
  · refine .inr (.inr ⟨h, ?_⟩)
    simp only [if_neg (show ¬ 2 * (num % den) < den by omega), if_neg (show ¬ den < 2 * (num % den) by omega)]
  · refine .inr (.inl ⟨h, ?_⟩)
    simp only [if_neg (show ¬ 2 * (num % den) < den by omega), if_pos h]

/-- No integer is nearer to `num / den` than the rounded one, and of two equally near it is the even one. -/
theorem roundHalfEven_nearest (num : Nat) {den : Nat} (hd : 0 < den) (j : Nat) :
    |(roundHalfEven num den * den : ℤ) - num| ≤ |(j * den : ℤ) - num| ∧
      (|(j * den : ℤ) - num| = |(roundHalfEven num den * den : ℤ) - num| → j ≠ roundHalfEven num den →
        roundHalfEven num den % 2 = 0) := by
  obtain ⟨q, r, hn, hr, hc⟩ := roundHalfEven_cases num hd
  have hnum : (num : ℤ) = den * q + r := by exact_mod_cast hn
  have hr' : (r : ℤ) < den := by exact_mod_cast hr
  have hr0 : (0 : ℤ) ≤ r := by positivity
  have hd' : (0 : ℤ) < den := by exact_mod_cast hd
  -- the distance of any integer, from below and from above
  have low : j ≤ q → |(j * den : ℤ) - num| = (q - j) * den + r := fun h => by
    have : (j : ℤ) ≤ q := by exact_mod_cast h
    rw [hnum, abs_of_nonpos (by nlinarith)]; ring
  have high : q + 1 ≤ j → |(j * den : ℤ) - num| = (j - q) * den - r := fun h => by
    have : (q : ℤ) + 1 ≤ j := by exact_mod_cast h
    rw [hnum, abs_of_nonneg (by nlinarith)]; ring
  have dq : |((q : ℕ) * den : ℤ) - num| = r := by rw [hnum, abs_of_nonpos (by nlinarith)]; ring
  have dq1 : |((q + 1 : ℕ) * den : ℤ) - num| = den - r := by
    push_cast
    rw [hnum, abs_of_nonneg (by nlinarith)]; ring
  have far : ∀ j' : ℤ, (1 : ℤ) ≤ j' → (den : ℤ) ≤ j' * den := fun j' h => by nlinarith
  rcases hc with ⟨h, e⟩ | ⟨h, e⟩ | ⟨h, e⟩
  · have h' : (2 * r : ℤ) < den := by exact_mod_cast h
    rw [e, dq]
    rcases Nat.lt_or_ge q j with hj | hj
    · rw [high hj]
      have := far (j - q) (by omega)
      exact ⟨by linarith, fun h1 => by linarith⟩
    · rw [low hj]
      rcases Nat.lt_or_ge j q with hq | hq
      · have := far (q - j) (by omega)
        exact ⟨by linarith, fun h1 => by linarith⟩
      · exact ⟨by have : j = q := by omega
                  subst this; simp, fun _ h2 => absurd (by omega) h2⟩
  · have h' : (den : ℤ) < 2 * r := by exact_mod_cast h
    rw [e, dq1]
    rcases Nat.lt_or_ge q j with hj | hj
    · rw [high hj]
      rcases Nat.lt_or_ge (q + 1) j with hq | hq
      · have := far (j - q - 1) (by omega)
        exact ⟨by linarith, fun h1 => by linarith⟩
      · have : j = q + 1 := by omega
        subst this
        exact ⟨by push_cast; linarith, fun _ h2 => absurd rfl h2⟩
    · rw [low hj]
      have : (0 : ℤ) ≤ (q - j) * den := mul_nonneg (by omega) (by omega)
      exact ⟨by linarith, fun h1 => by linarith⟩
  · have h' : (2 * r : ℤ) = den := by exact_mod_cast h
    have heven : (q + q % 2) % 2 = 0 := by omega
    have hdist : |((q + q % 2 : ℕ) * den : ℤ) - num| = r := by
      rcases Nat.mod_two_eq_zero_or_one q with h0 | h0 <;> rw [h0]
      · exact dq
      · rw [dq1]; linarith
    rw [e]
    refine ⟨?_, fun _ _ => heven⟩
    rw [hdist]
    rcases Nat.lt_or_ge q j with hj | hj
    · rw [high hj]
      have := far (j - q) (by omega)
      linarith
    · rw [low hj]
      have : (0 : ℤ) ≤ (q - j) * den := mul_nonneg (by omega) (by omega)
      linarith

/-! ### Units of a pattern -/

namespace Binary64

/-- The units of 2^-1074 that bits 62:0 stand for, when they are finite. -/
def magOf (low : Nat) : Nat :=
  if low / 2 ^ 52 = 0 then low % 2 ^ 52 else (2 ^ 52 + low % 2 ^ 52) * 2 ^ (low / 2 ^ 52 - 1)

/-- Scale `k` and significand `m` in one pattern. -/
theorem magOf_scaled {k m : Nat} (h : k = 0 ∨ 2 ^ 52 ≤ m) (hm : m ≤ 2 ^ 53) : magOf (k * 2 ^ 52 + m) = m * 2 ^ k := by
  unfold magOf
  rcases Nat.lt_or_ge m (2 ^ 52) with hs | hs
  · have hk : k = 0 := by omega
    subst hk
    rw [if_pos (by omega)]
    omega
  · rcases Nat.lt_or_ge m (2 ^ 53) with hs' | hs'
    · have h1 : (k * 2 ^ 52 + m) / 2 ^ 52 = k + 1 := by omega
      have h2 : (k * 2 ^ 52 + m) % 2 ^ 52 = m - 2 ^ 52 := by omega
      rw [h1, h2, if_neg (by omega), Nat.add_sub_cancel, show 2 ^ 52 + (m - 2 ^ 52) = m by omega]
    · have hm' : m = 2 ^ 53 := by omega
      subst hm'
      have h1 : (k * 2 ^ 52 + 2 ^ 53) / 2 ^ 52 = k + 2 := by omega
      have h2 : (k * 2 ^ 52 + 2 ^ 53) % 2 ^ 52 = 0 := by omega
      rw [h1, h2, if_neg (by omega)]
      rw [show k + 2 - 1 = k + 1 from rfl, Nat.pow_succ 2 k]
      ring

theorem mul_pow_lt {f e k : ℕ} (hf : f < 2 ^ 53) (h : e + 1 ≤ k) : f * 2 ^ e < 2 ^ (52 + k) := by
  obtain ⟨c, rfl⟩ := Nat.exists_eq_add_of_le h
  have hc : 1 ≤ 2 ^ c := Nat.one_le_two_pow
  have he : 0 < 2 ^ e := by positivity
  rw [show 52 + (e + 1 + c) = 53 + e + c by omega, Nat.pow_add, Nat.pow_add]
  exact Nat.lt_of_lt_of_le (Nat.mul_lt_mul_of_pos_right hf he) (Nat.le_mul_of_pos_right _ hc)

/-- Every pattern's units are a multiple of `2^k`, or fewer than `2^(52+k)`. -/
theorem magOf_dvd_or_lt (low k : Nat) : 2 ^ k ∣ magOf low ∨ magOf low < 2 ^ (52 + k) := by
  unfold magOf
  have hf : low % 2 ^ 52 < 2 ^ 52 := Nat.mod_lt _ (by positivity)
  split
  · right
    exact Nat.lt_of_lt_of_le hf (Nat.pow_le_pow_right (by decide) (by omega))
  · rcases Nat.lt_or_ge (low / 2 ^ 52 - 1) k with h | h
    · right
      exact mul_pow_lt (by omega) (by omega)
    · left
      exact Nat.dvd_trans (Nat.pow_dvd_pow 2 h) (Nat.dvd_mul_left _ _)

/-! ### The rounded significand -/

/-- With scale `k > 0` the value is at least `2^(52+k)` units, and always below `2^(53+k)`. -/
theorem scale_bounds (num : Nat) {den : Nat} (hd : 0 < den) :
    num < 2 ^ (53 + scale num den) * den ∧ (scale num den ≠ 0 → 2 ^ (52 + scale num den) * den ≤ num) := by
  have hlog : num / den < 2 ^ (Nat.log2 (num / den) + 1) := Nat.lt_log2_self
  have hup : num / den < 2 ^ (53 + scale num den) :=
    Nat.lt_of_lt_of_le hlog (Nat.pow_le_pow_right (by decide) (by unfold scale; omega))
  refine ⟨(Nat.div_lt_iff_lt_mul hd).1 hup, fun hk => ?_⟩
  have hne : num / den ≠ 0 := fun h0 => hk (by rw [scale, h0]; rfl)
  have hle : 2 ^ (52 + scale num den) ≤ num / den := by
    have := Nat.log2_self_le hne
    rwa [show 52 + scale num den = Nat.log2 (num / den) by unfold scale at *; omega]
  exact (Nat.le_div_iff_mul_le hd).1 hle

/-- The significand of `num / den` units at its scale. -/
def significand (num den : Nat) : Nat := roundHalfEven num (den * 2 ^ scale num den)

theorem roundLow_eq (num den : Nat) :
    roundLow num den = min (scale num den * 2 ^ 52 + significand num den) infPattern := rfl

/-- The significand has at most 53 bits, or is `2^53`; and 53 bits unless the scale is 0. -/
theorem significand_bounds (num : Nat) {den : Nat} (hd : 0 < den) :
    significand num den ≤ 2 ^ 53 ∧ (scale num den = 0 ∨ 2 ^ 52 ≤ significand num den) := by
  obtain ⟨hup, hlo⟩ := scale_bounds num hd
  unfold significand
  generalize scale num den = k at *
  have hD : 0 < den * 2 ^ k := Nat.mul_pos hd (by positivity)
  obtain ⟨q, r, hn, hr, hc⟩ := roundHalfEven_cases num hD
  have hup' : num < 2 ^ 53 * (den * 2 ^ k) := by
    calc num < 2 ^ (53 + k) * den := hup
      _ = 2 ^ 53 * (den * 2 ^ k) := by rw [Nat.pow_add]; ring
  have hq : q < 2 ^ 53 := by
    by_contra hq
    have : den * 2 ^ k * 2 ^ 53 ≤ den * 2 ^ k * q := Nat.mul_le_mul_left _ (by omega)
    have : 2 ^ 53 * (den * 2 ^ k) = den * 2 ^ k * 2 ^ 53 := Nat.mul_comm ..
    omega
  refine ⟨by omega, ?_⟩
  by_cases hk : k = 0
  · exact .inl hk
  · right
    have hlo' : 2 ^ 52 * (den * 2 ^ k) ≤ num := by
      calc 2 ^ 52 * (den * 2 ^ k) = 2 ^ (52 + k) * den := by rw [Nat.pow_add]; ring
        _ ≤ num := hlo hk
    have hq' : 2 ^ 52 ≤ q := by
      by_contra hq'
      have : den * 2 ^ k * (q + 1) ≤ den * 2 ^ k * 2 ^ 52 := Nat.mul_le_mul_left _ (by omega)
      have : 2 ^ 52 * (den * 2 ^ k) = den * 2 ^ k * 2 ^ 52 := Nat.mul_comm ..
      have : den * 2 ^ k * (q + 1) = den * 2 ^ k * q + den * 2 ^ k := Nat.mul_succ ..
      omega
    omega

/-- The units of the rounded value, when it does not overflow. -/
theorem magOf_round (num : Nat) {den : Nat} (hd : 0 < den) :
    magOf (scale num den * 2 ^ 52 + significand num den) = significand num den * 2 ^ scale num den :=
  magOf_scaled (significand_bounds num hd).2 (significand_bounds num hd).1

/-- No pattern is nearer to `num / den` units than the rounded one, and of two equally near it is the even one. -/
theorem round_nearest (num : Nat) {den : Nat} (hd : 0 < den) (low : Nat) :
    |((significand num den * 2 ^ scale num den : ℕ) * den : ℤ) - num| ≤ |(magOf low * den : ℤ) - num| ∧
      (|(magOf low * den : ℤ) - num| = |((significand num den * 2 ^ scale num den : ℕ) * den : ℤ) - num| →
        magOf low ≠ significand num den * 2 ^ scale num den →
        (scale num den * 2 ^ 52 + significand num den) % 2 = 0) := by
  obtain ⟨-, hlo⟩ := scale_bounds num hd
  have hD : 0 < den * 2 ^ scale num den := Nat.mul_pos hd (by positivity)
  have near := roundHalfEven_nearest num hD
  change ∀ j, _ ∧ _ at near
  have hsig : significand num den = roundHalfEven num (den * 2 ^ scale num den) := rfl
  rw [← hsig] at near
  generalize significand num den = m at *
  generalize scale num den = k at *
  have toD : ∀ j : ℕ, ((j * 2 ^ k : ℕ) * den : ℤ) = (j : ℤ) * ((den * 2 ^ k : ℕ) : ℤ) := fun j => by
    push_cast; ring
  rw [toD]
  rcases magOf_dvd_or_lt low k with ⟨j, hj⟩ | hlt
  · rw [hj, Nat.mul_comm (2 ^ k) j, toD]
    refine ⟨(near j).1, fun h1 h2 => ?_⟩
    have := (near j).2 h1 fun e => h2 (by rw [e])
    omega
  · by_cases hk : k = 0
    · subst hk
      have := near (magOf low)
      simp only [Nat.pow_zero, Nat.mul_one] at *
      exact ⟨this.1, fun h1 h2 => by have := this.2 h1 h2; omega⟩
    · -- fewer units than `2^(52+k)`: strictly farther than `2^52` at this scale
      have h52 := (near (2 ^ 52)).1
      have hb := hlo hk
      have hbz : ((2 ^ 52 : ℕ) : ℤ) * ((den * 2 ^ k : ℕ) : ℤ) ≤ num := by
        have : (2 ^ 52) * (den * 2 ^ k) ≤ num := by
          calc 2 ^ 52 * (den * 2 ^ k) = 2 ^ (52 + k) * den := by rw [Nat.pow_add]; ring
            _ ≤ num := hb
        exact_mod_cast this
      have hfar : (magOf low * den : ℤ) < ((2 ^ 52 : ℕ) : ℤ) * ((den * 2 ^ k : ℕ) : ℤ) := by
        have : magOf low * den < 2 ^ 52 * (den * 2 ^ k) := by
          calc magOf low * den < 2 ^ (52 + k) * den := Nat.mul_lt_mul_of_pos_right hlt hd
            _ = 2 ^ 52 * (den * 2 ^ k) := by rw [Nat.pow_add]; ring
        exact_mod_cast this
      have h1 : |((2 ^ 52 : ℕ) : ℤ) * ((den * 2 ^ k : ℕ) : ℤ) - num| < |(magOf low * den : ℤ) - num| := by
        rw [abs_of_nonpos (by linarith), abs_of_nonpos (by linarith)]
        linarith
      exact ⟨le_of_lt (lt_of_le_of_lt h52 h1), fun h2 => absurd h2 (ne_of_gt (lt_of_le_of_lt h52 h1))⟩

/-! ### Overflow -/

theorem overflow_aux (num : Nat) {den k m E : ℕ} (hd : 0 < den) (hE : E = 2044) (hup : num < 2 ^ (53 + k) * den)
    (hlo : k ≠ 0 → 2 ^ (52 + k) * den ≤ num) (hm : m ≤ 2 ^ 53) (hm' : k = 0 ∨ 2 ^ 52 ≤ m)
    (hsig : m = roundHalfEven num (den * 2 ^ k)) :
    2047 * 2 ^ 52 ≤ k * 2 ^ 52 + m ↔ (2 ^ 54 - 1) * 2 ^ E * den ≤ num := by
  rcases Nat.lt_trichotomy k (E + 1) with hk | hk | hk
  · -- below the last binade: finite, and the value is below the threshold
    have h1 : 2 ^ (53 + k) ≤ 2 ^ 53 * 2 ^ E := by
      rw [← Nat.pow_add]
      exact Nat.pow_le_pow_right (by decide) (by omega)
    have h2 := Nat.mul_le_mul_right den (Nat.le_trans h1 (Nat.mul_le_mul_right (2 ^ E) (show 2 ^ 53 ≤ 2 ^ 54 - 1 by omega)))
    constructor <;> intro h <;> omega
  · subst hk
    rw [← Nat.add_assoc, Nat.pow_succ, Nat.pow_add] at hup
    rw [Nat.pow_succ] at hsig
    have hpos : 0 < 2 ^ E * den := Nat.mul_pos (by positivity) hd
    rw [show den * (2 ^ E * 2) = 2 * (2 ^ E * den) by ring] at hsig
    rw [show 2 ^ 53 * 2 ^ E * 2 * den = 2 ^ 53 * (2 * (2 ^ E * den)) by ring] at hup
    rw [show (2 ^ 54 - 1) * 2 ^ E * den = (2 ^ 54 - 1) * (2 ^ E * den) by ring]
    generalize 2 ^ E * den = D at *
    obtain ⟨q, r, hn, hr, hc⟩ := roundHalfEven_cases num (show 0 < 2 * D by omega)
    rw [← hsig] at hc
    have hq : q < 2 ^ 53 := by
      by_contra hq
      have : 2 * D * 2 ^ 53 ≤ 2 * D * q := Nat.mul_le_mul_left _ (by omega)
      omega
    constructor
    · intro h
      have hq1 : q = 2 ^ 53 - 1 := by omega
      subst hq1
      omega
    · intro h
      have hq1 : q = 2 ^ 53 - 1 := by
        by_contra hne
        have : 2 * D * (q + 1) ≤ 2 * D * (2 ^ 53 - 1) := Nat.mul_le_mul_left _ (by omega)
        have : 2 * D * (q + 1) = 2 * D * q + 2 * D := Nat.mul_succ ..
        omega
      subst hq1
      omega
  · -- above it: infinite
    have h1 : 2 ^ 54 * 2 ^ E ≤ 2 ^ (52 + k) := by
      rw [← Nat.pow_add]
      exact Nat.pow_le_pow_right (by decide) (by omega)
    have h2 := Nat.mul_le_mul_right den (Nat.le_trans (Nat.mul_le_mul_right (2 ^ E) (show 2 ^ 54 - 1 ≤ 2 ^ 54 by omega)) h1)
    have h3 := hlo (by omega)
    constructor <;> intro _ <;> omega

/-- The rounded value is infinite exactly from half a unit above the largest finite value on (R147). -/
theorem overflow_iff (num : Nat) {den : Nat} (hd : 0 < den) :
    infPattern ≤ scale num den * 2 ^ 52 + significand num den ↔ (2 ^ 54 - 1) * 2 ^ 2044 * den ≤ num :=
  overflow_aux num hd rfl (scale_bounds num hd).1 (scale_bounds num hd).2 (significand_bounds num hd).1
    (significand_bounds num hd).2 rfl

/-! ### Packing -/

theorem roundLow_le (num den : Nat) : roundLow num den ≤ infPattern := Nat.min_le_right ..

theorem pack_toNat (neg : Bool) {low : Nat} (h : low < 2 ^ 63) :
    (pack neg low).toNat = (if neg then 2 ^ 63 else 0) + low := by
  unfold pack
  rw [BitVec.toNat_ofNat]
  split <;> omega

theorem round_toNat (neg : Bool) (num den : Nat) :
    (round neg num den).toNat = (if neg then 2 ^ 63 else 0) + roundLow num den :=
  pack_toNat neg (Nat.lt_of_le_of_lt (roundLow_le ..) (by decide))

/-- A finite pattern is its sign and the units of its low bits. -/
theorem ofBits_finite {v : Word} (h : expField v ≠ 2047) : ofBits v = .fin (signBit v) (magOf (v.toNat % 2 ^ 63)) := by
  have he : v.toNat % 2 ^ 63 / 2 ^ 52 = expField v := by unfold expField; omega
  have hf : v.toNat % 2 ^ 63 % 2 ^ 52 = fracField v := by unfold fracField; omega
  unfold ofBits magOf
  rw [if_neg h, he, hf]
  split <;> rfl

end Binary64

end Sys2Proof.Machine
end

