-- ==== Sys2Proof/Laws/Hypercall.lean ====
section
/-! SUPPORT. The host's answers, and the decimal digits of a diagnostic line (R233). -/

namespace Sys2Proof.Machine

/-- The host's answer, by the code of the request (R230). -/
theorem HcallReq.answer_cases (r : HcallReq) :
    (r.code = 1 ∧ r.answer = .halt 0) ∨ (r.code = 2 ∧ r.answer = .halt 1) ∨ (r.code = 3 ∧ r.answer = .continue) ∨
      (r.code ≠ 1 ∧ r.code ≠ 2 ∧ r.code ≠ 3 ∧ r.answer = .abort r.code) := by
  unfold HcallReq.answer
  split
  · exact .inl ⟨‹_›, rfl⟩
  · split
    · exact .inr (.inl ⟨‹_›, rfl⟩)
    · split
      · exact .inr (.inr (.inl ⟨‹_›, rfl⟩))
      · exact .inr (.inr (.inr ⟨‹_›, ‹_›, ‹_›, rfl⟩))

/-- Only a request of code 3 emits, one line (R230, R233). -/
theorem HcallReq.lines_cases (r : HcallReq) :
    (r.code = 3 ∧ r.lines = [diagLine r.value]) ∨ (r.code ≠ 3 ∧ r.lines = []) := by
  by_cases h : r.code = 3
  · exact .inl ⟨h, if_pos h⟩
  · exact .inr ⟨h, if_neg h⟩

theorem digitChar_toNat (n : Nat) : (digitChar n).toNat = 48 + n % 10 := by
  have h : n % 10 < 10 := Nat.mod_lt _ (by decide)
  unfold digitChar
  generalize n % 10 = k at *
  interval_cases k <;> rfl

theorem decimalDigits_ne_nil {fuel : Nat} (hf : 0 < fuel) (n : Nat) : decimalDigits fuel n ≠ [] := by
  cases fuel with
  | zero => omega
  | succ f => unfold decimalDigits; split <;> simp

/-- Every character is a decimal digit. -/
theorem decimalDigits_digit {fuel n : Nat} {c : Char} (h : c ∈ decimalDigits fuel n) : ∃ k, c = digitChar k := by
  induction fuel generalizing n with
  | zero => cases h
  | succ f ih =>
    unfold decimalDigits at h
    split at h
    · exact ⟨n, by simpa using h⟩
    · rcases List.mem_append.1 h with h | h
      · exact ih h
      · exact ⟨n, by simpa using h⟩

/-- The digits write the number, given enough of them. -/
theorem decimalDigits_value {fuel n : Nat} (h : n < 10 ^ fuel) :
    (decimalDigits fuel n).foldl (fun a c => 10 * a + (c.toNat - 48)) 0 = n := by
  induction fuel generalizing n with
  | zero => simp at h; simp [decimalDigits, h]
  | succ f ih =>
    unfold decimalDigits
    split
    · simp only [List.foldl_cons, List.foldl_nil, digitChar_toNat]
      omega
    · have hn : n / 10 < 10 ^ f := by rw [Nat.pow_succ] at h; omega
      simp only [List.foldl_append, ih hn, List.foldl_cons, List.foldl_nil, digitChar_toNat]
      omega

/-- The first digit is 0 only for the number 0, which is written `0`. -/
theorem decimalDigits_head {fuel n : Nat} (h : n < 10 ^ fuel) (h0 : (decimalDigits fuel n).head? = some '0') :
    decimalDigits fuel n = ['0'] := by
  induction fuel generalizing n with
  | zero => simp [decimalDigits] at h0
  | succ f ih =>
    unfold decimalDigits at h0 ⊢
    split
    · rename_i hn
      rw [if_pos hn] at h0
      simpa using h0
    · rename_i hn
      rw [if_neg hn] at h0
      have hn' : n / 10 < 10 ^ f := by rw [Nat.pow_succ] at h; omega
      have hne : decimalDigits f (n / 10) ≠ [] :=
        decimalDigits_ne_nil (by rcases f with _ | f; (· simp at hn'; omega); exact Nat.succ_pos f) _
      rw [List.head?_append_of_ne_nil _ hne] at h0
      have := ih hn' h0
      have hv := decimalDigits_value hn'
      rw [this] at hv
      have : n / 10 = 0 := hv.symm
      omega

/-- The magnitude of a 64-bit value has at most 19 digits. -/
theorem natAbs_toInt_lt (v : Word) : v.toInt.natAbs < 10 ^ 20 := by
  have h1 := BitVec.le_toInt v
  have h2 := BitVec.toInt_lt (x := v)
  omega

end Sys2Proof.Machine
end

