-- ==== Sys2Proof/Laws/PerInstr.lean ====
section
/-! SUPPORT. Laws said instruction by instruction. -/

namespace Sys2Proof.Laws.OpcodeOfEncode

/-- The opcode field of a well-formed instruction's word is its opcode (R85, R88). -/
def Statement (i : Instr) : Prop := i.wellFormed = true → opField (encode i) = i.opcode

theorem ofN (op : Fin 32) : opField (encodeN op) = op :=
  Fin.ext (by rw [opField_val, encodeN_toNat]; omega)

theorem ofR3 (op : Fin 32) (d a b : Reg) : opField (encodeR3 op d a b) = op :=
  Fin.ext (by rw [opField_val, encodeR3_toNat]; omega)

theorem ofR2 (op : Fin 32) (d a : Reg) : opField (encodeR2 op d a) = op :=
  Fin.ext (by rw [opField_val, encodeR2_toNat]; omega)

theorem ofI (op : Fin 32) (d : Reg) {imm : Nat} (h : immInRange imm = true) : opField (encodeI op d imm) = op :=
  have h' : imm < 2 ^ 22 := of_decide_eq_true h
  Fin.ext (by rw [opField_val, encodeI_toNat _ _ h']; omega)

theorem nop : Statement .nop := fun _ => ofN _
theorem sys (d : Reg) (imm : Nat) : Statement (.sys d imm) := fun h => ofI _ d h
theorem sdiv (d a b : Reg) : Statement (.sdiv d a b) := fun _ => ofR3 _ d a b
theorem smod (d a b : Reg) : Statement (.smod d a b) := fun _ => ofR3 _ d a b
theorem add (d a b : Reg) : Statement (.add d a b) := fun _ => ofR3 _ d a b
theorem sub (d a b : Reg) : Statement (.sub d a b) := fun _ => ofR3 _ d a b
theorem mul (d a b : Reg) : Statement (.mul d a b) := fun _ => ofR3 _ d a b
theorem udiv (d a b : Reg) : Statement (.udiv d a b) := fun _ => ofR3 _ d a b
theorem umod (d a b : Reg) : Statement (.umod d a b) := fun _ => ofR3 _ d a b
theorem fadd (d a b : Reg) : Statement (.fadd d a b) := fun _ => ofR3 _ d a b
theorem fsub (d a b : Reg) : Statement (.fsub d a b) := fun _ => ofR3 _ d a b
theorem fmul (d a b : Reg) : Statement (.fmul d a b) := fun _ => ofR3 _ d a b
theorem fdiv (d a b : Reg) : Statement (.fdiv d a b) := fun _ => ofR3 _ d a b
theorem ftoi (d a : Reg) : Statement (.ftoi d a) := fun _ => ofR2 _ d a
theorem itof (d a : Reg) : Statement (.itof d a) := fun _ => ofR2 _ d a
theorem and (d a b : Reg) : Statement (.and d a b) := fun _ => ofR3 _ d a b
theorem or (d a b : Reg) : Statement (.or d a b) := fun _ => ofR3 _ d a b
theorem xor (d a b : Reg) : Statement (.xor d a b) := fun _ => ofR3 _ d a b
theorem not (d a : Reg) : Statement (.not d a) := fun _ => ofR2 _ d a
theorem shl (d a b : Reg) : Statement (.shl d a b) := fun _ => ofR3 _ d a b
theorem shr (d a b : Reg) : Statement (.shr d a b) := fun _ => ofR3 _ d a b
theorem ld (d a : Reg) : Statement (.ld d a) := fun _ => ofR2 _ d a
theorem st (d a : Reg) : Statement (.st d a) := fun _ => ofR2 _ d a
theorem ldi (d : Reg) (imm : Nat) : Statement (.ldi d imm) := fun h => ofI _ d h
theorem mov (d a : Reg) : Statement (.mov d a) := fun _ => ofR2 _ d a
theorem jnz (d a : Reg) : Statement (.jnz d a) := fun _ => ofR2 _ d a
theorem reserved26 : Statement .reserved26 := fun _ => ofN _
theorem reserved27 : Statement .reserved27 := fun _ => ofN _
theorem reserved28 : Statement .reserved28 := fun _ => ofN _
theorem reserved29 : Statement .reserved29 := fun _ => ofN _
theorem reserved30 : Statement .reserved30 := fun _ => ofN _
theorem reserved31 : Statement .reserved31 := fun _ => ofN _

end Sys2Proof.Laws.OpcodeOfEncode
end

