-- ==== Sys2Proof/Tests/Slice0.lean ====
section
/-! SUPPORT. Tests: expected values are the spec's own (95_test_vectors.md, named by their ids, and the encodings of
30_encoding.md rule R84); and one witness per statement that has hypotheses, a concrete state and operands that meet
them. -/

open Sys2Proof Sys2Proof.Machine Sys2Proof.Claims

namespace Sys2Proof.Tests

/-! ### Small machines -/

/-- A machine of 64 bytes whose registers hold the listed values and whose memory the listed cells. -/
def machine (regs : List (Nat × Word)) (mem : Memory := []) : State :=
  { State.reset with
    regs := regs.foldl (fun v p => v.setIfInBounds p.1 p.2) State.reset.regs
    mem := mem
    memSize := 64 }

/-- The same with an instruction word where the next step fetches. -/
def machineAt (w : Nat) (regs : List (Nat × Word)) (mem : Memory := []) : State := (machine regs mem).withFetchWord 32 w

/-- The state after one step. -/
def after (s : State) : Option State :=
  match step s with
  | .next t => some t
  | .fault _ => none
  | .refused _ => none

/-- Register `r` after one step of word `w` from the registers listed. -/
def regAfter (r : Reg) (w : Nat) (regs : List (Nat × Word)) : Option Word := (after (machineAt w regs)).map (·.reg r)

/-- The run state after one step. -/
def runAfter (w : Nat) (regs : List (Nat × Word)) : Option RunState := (after (machineAt w regs)).map (·.run)

/-- The cause of the fault, if the step took one. -/
def causeAfter (w : Nat) (regs : List (Nat × Word)) : Option FaultCause :=
  match runAfter w regs with
  | some (.faulted r) => some r.cause
  | _ => none

/-- `x[3]` after one step, with `x[1]` and `x[2]` as given: the form of the spec's vectors. -/
def x3 (w : Nat) (x1 x2 : Word) : Option Word := regAfter 3 w [(1, x1), (2, x2)]

/-! ### WellFormed: each check with a term it refuses (R83) -/

theorem test_wellFormed_refuses_sys : (Instr.sys 0 4194304).wellFormed = false := by decide
theorem test_wellFormed_refuses_ldi : (Instr.ldi 0 4194304).wellFormed = false := by decide
theorem test_wellFormed_accepts : (Instr.sys 31 4194303).wellFormed = true ∧ (Instr.ldi 31 4194303).wellFormed = true := by
  decide

/-! ### Decoding: op, d, a, b written out bit by bit (R84, R88) -/

theorem test_decode_nop_sys :
    decode 0b00000000000000000000000000000000 = .nop ∧ decode 0b00001101010000000000000000000001 = .sys 21 1 := by
  decide
theorem test_decode_integer :
    decode 0b00010000110000100010000000000000 = .sdiv 3 1 2 ∧ decode 0b00011000110000100010000000000000 = .smod 3 1 2 ∧
    decode 0b00100111110000100010000000000000 = .add 31 1 2 ∧ decode 0b00101000111111100010000000000000 = .sub 3 31 2 ∧
    decode 0b00110000110000111111000000000000 = .mul 3 1 31 ∧ decode 0b00111000110000100010111111111111 = .udiv 3 1 2 ∧
    decode 0b01000000110000100010000000000001 = .umod 3 1 2 := by decide
theorem test_decode_float :
    decode 0b01001000110000100010000000000000 = .fadd 3 1 2 ∧ decode 0b01010000110000100010000000000000 = .fsub 3 1 2 ∧
    decode 0b01011000110000100010000000000000 = .fmul 3 1 2 ∧ decode 0b01100000110000100010000000000000 = .fdiv 3 1 2 ∧
    decode 0b01101000110000100000000000000000 = .ftoi 3 1 ∧ decode 0b01110000110000111111111111111111 = .itof 3 1 := by
  decide
theorem test_decode_logic :
    decode 0b01111000110000100010000000000000 = .and 3 1 2 ∧ decode 0b10000000110000100010000000000000 = .or 3 1 2 ∧
    decode 0b10001000110000100010000000000000 = .xor 3 1 2 ∧ decode 0b10010000110000100000000000000000 = .not 3 1 ∧
    decode 0b10011000110000100010000000000000 = .shl 3 1 2 ∧ decode 0b10100000110000100010000000000000 = .shr 3 1 2 := by
  decide
theorem test_decode_memory_and_moves :
    decode 0b10101000110001000000000000000000 = .ld 3 2 ∧ decode 0b10110000100000100000000000000000 = .st 2 1 ∧
    decode 0b10111000111111111111111111111111 = .ldi 3 4194303 ∧ decode 0b11000111110010100000000000000000 = .mov 31 5 ∧
    decode 0b11001001000000100000000000000000 = .jnz 4 1 := by decide
theorem test_decode_reserved :
    decode 0b11010000000000000000000000000000 = .reserved26 ∧ decode 0b11011000000000000000000000000001 = .reserved27 ∧
    decode 0b11100111111111111111111111111111 = .reserved28 ∧ decode 0b11101000000000000000000000000000 = .reserved29 ∧
    decode 0b11110000000000000000000000000000 = .reserved30 ∧ decode 0b11111111111111111111111111111111 = .reserved31 := by
  decide
/-- R57's example: the bytes of `ldi r1, 42`, and the bytes that follow it. -/
theorem test_decodeBytes : decodeBytes [0x2A, 0x00, 0x40, 0xB8, 0x05] = .ok (.ldi 1 42, [0x05]) := by decide
theorem test_decodeTableWord : decodeTableWord 32 0x08C00003 = some (.sys 3 3) ∧ decodeTableWord 64 0 = none := by decide

/-! ### One step per instruction, from the spec's vectors -/

/-- C7. -/
theorem test_nop : regAfter 31 0x07FFFFFF [] = some 4 ∧ runAfter 0x07FFFFFF [] = some .running := by decide
/-- C11: the line `debug: -1`. -/
theorem test_sys_debug : (after (machineAt 0x08C00003 [(3, 0xFFFFFFFFFFFFFFFF), (31, 16)])).map
    (fun t => (t.diag, t.pc, t.run)) = some (["debug: -1\n".toList], 20, .running) := by decide
/-- C12, C13 and P1. -/
theorem test_sys_outcomes : runAfter 0x08000000 [] = some (.aborted 0) ∧ runAfter 0x08000001 [] = some (.halted 0) ∧
    runAfter 0x08000002 [] = some (.halted 1) ∧ regAfter 31 0x08000002 [] = some 4 := by decide
/-- I1 to I3, I6. -/
theorem test_sdiv : x3 0x10C22000 0xFFFFFFFFFFFFFFF9 2 = some 0xFFFFFFFFFFFFFFFD ∧
    x3 0x10C22000 7 0xFFFFFFFFFFFFFFFE = some 0xFFFFFFFFFFFFFFFD ∧
    x3 0x10C22000 0xFFFFFFFFFFFFFFF9 0xFFFFFFFFFFFFFFFE = some 3 ∧
    x3 0x10C22000 0x8000000000000000 1 = some 0x8000000000000000 := by decide
/-- I4, I5: the whole state of a fault but its run state is the one before (R226). -/
theorem test_sdiv_fault : causeAfter 0x10C22000 [(1, 5)] = some (.arithmeticFault .divideByZero) ∧
    causeAfter 0x10C22000 [(1, 0x8000000000000000), (2, 0xFFFFFFFFFFFFFFFF)] = some (.arithmeticFault .overflow) ∧
    (after (machineAt 0x10C22000 [(1, 5)])).map (fun t => { t with run := .running }) =
      some (machineAt 0x10C22000 [(1, 5)]) := by decide
/-- I7 to I9. -/
theorem test_smod : x3 0x18C22000 7 2 = some 1 ∧ x3 0x18C22000 0xFFFFFFFFFFFFFFF9 2 = some 0xFFFFFFFFFFFFFFFF ∧
    x3 0x18C22000 7 0xFFFFFFFFFFFFFFFE = some 1 := by decide
/-- I10, I11. -/
theorem test_smod_fault : causeAfter 0x18C22000 [(1, 5)] = some (.arithmeticFault .divideByZero) ∧
    causeAfter 0x18C22000 [(1, 0x8000000000000000), (2, 0xFFFFFFFFFFFFFFFF)] = some (.arithmeticFault .overflow) := by decide
/-- I12, I13, I25. -/
theorem test_add : x3 0x20C22000 0xFFFFFFFFFFFFFFFF 0xFFFFFFFFFFFFFFFF = some 0xFFFFFFFFFFFFFFFE ∧
    x3 0x20C22000 0xFFFFFFFFFFFFFFFF 1 = some 0 ∧ regAfter 1 0x20421000 [(1, 21)] = some 42 := by decide
/-- I26: register 31 reads the advanced value. -/
theorem test_add_pc : regAfter 3 0x20FE0000 [(31, 4)] = some 8 := by decide
/-- I14, I15. -/
theorem test_sub : x3 0x28C22000 0 1 = some 0xFFFFFFFFFFFFFFFF ∧ x3 0x28C22000 5 5 = some 0 := by decide
/-- I16, I17. -/
theorem test_mul : x3 0x30C22000 0xFFFFFFFFFFFFFFFF 0xFFFFFFFFFFFFFFFF = some 1 ∧
    x3 0x30C22000 0x100000000 0x100000000 = some 0 := by decide
/-- I18 to I20. -/
theorem test_udiv : causeAfter 0x38C22000 [(1, 1)] = some (.arithmeticFault .divideByZero) ∧
    x3 0x38C22000 0xFFFFFFFFFFFFFFFF 3 = some 0x5555555555555555 ∧
    x3 0x38C22000 0xFFFFFFFFFFFFFFF9 2 = some 0x7FFFFFFFFFFFFFFC := by decide
/-- I22 to I24. -/
theorem test_umod : causeAfter 0x40C22000 [(1, 1)] = some (.arithmeticFault .divideByZero) ∧
    x3 0x40C22000 0xFFFFFFFFFFFFFFF9 2 = some 1 ∧ x3 0x40C22000 3 7 = some 3 := by decide
/-- F1, F2, F4, F5. -/
theorem test_fadd : x3 0x48C22000 0 0x8000000000000000 = some 0 ∧
    x3 0x48C22000 0x8000000000000000 0x8000000000000000 = some 0x8000000000000000 ∧
    x3 0x48C22000 0x7FE1CCF385EBC8A0 0x7FE1CCF385EBC8A0 = some 0x7FF0000000000000 ∧
    x3 0x48C22000 0x3FB999999999999A 0x3FC999999999999A = some 0x3FD3333333333334 := by decide +kernel
/-- F3, F6 to F8. -/
theorem test_fadd_nan : x3 0x48C22000 0x7FF0000000000000 0xFFF0000000000000 = some 0xFFF8000000000000 ∧
    x3 0x48C22000 0x7FF0000000000001 0x3FF0000000000000 = some 0x7FF8000000000001 ∧
    x3 0x48C22000 0x3FF0000000000000 0xFFF8000000000005 = some 0xFFF8000000000005 ∧
    x3 0x48C22000 0x7FF4000000000000 0x7FF8000000000001 = some 0x7FFC000000000000 := by decide +kernel
/-- F9 to F12. -/
theorem test_fsub : x3 0x50C22000 0x3FF8000000000000 0x3FE0000000000000 = some 0x3FF0000000000000 ∧
    x3 0x50C22000 0x4004000000000000 0x4004000000000000 = some 0 ∧
    x3 0x50C22000 0x7FF0000000000000 0x7FF0000000000000 = some 0xFFF8000000000000 ∧
    x3 0x50C22000 0x8000000000000000 0 = some 0x8000000000000000 := by decide +kernel
/-- F13 to F17. -/
theorem test_fmul : x3 0x58C22000 0x3FF8000000000000 0x4000000000000000 = some 0x4008000000000000 ∧
    x3 0x58C22000 0 0x7FF0000000000000 = some 0xFFF8000000000000 ∧
    x3 0x58C22000 1 0x3FE0000000000000 = some 0 ∧
    x3 0x58C22000 0xC000000000000000 0 = some 0x8000000000000000 ∧
    x3 0x58C22000 0x6974E718D7D7625A 0x6974E718D7D7625A = some 0x7FF0000000000000 := by decide +kernel
/-- F18, F20, F21, F23, F24. -/
theorem test_fdiv : x3 0x60C22000 0x4008000000000000 0x4000000000000000 = some 0x3FF8000000000000 ∧
    x3 0x60C22000 0x3FF0000000000000 0x8000000000000000 = some 0xFFF0000000000000 ∧
    x3 0x60C22000 0 0 = some 0xFFF8000000000000 ∧
    x3 0x60C22000 0x3FF0000000000000 0x7FF0000000000000 = some 0 ∧
    x3 0x60C22000 0x3FF0000000000000 0x4008000000000000 = some 0x3FD5555555555555 := by decide +kernel
/-- F26, F27, F29, F33, F35. -/
theorem test_ftoi : x3 0x68C20000 0x4007333333333333 0 = some 2 ∧ x3 0x68C20000 0xBFE0000000000000 0 = some 0 ∧
    x3 0x68C20000 0xBFF0000000000000 0 = some 0 ∧ x3 0x68C20000 0x43EFFFFFFFFFFFFF 0 = some 0xFFFFFFFFFFFFF800 ∧
    x3 0x68C20000 0x43E0000000000000 0 = some 0x8000000000000000 := by decide +kernel
/-- F30 to F32, F34. -/
theorem test_ftoi_saturates : x3 0x68C20000 0xFFF0000000000000 0 = some 0 ∧
    x3 0x68C20000 0x7FF0000000000000 0 = some 0xFFFFFFFFFFFFFFFF ∧ x3 0x68C20000 0x7FF8000000000000 0 = some 0 ∧
    x3 0x68C20000 0x43F0000000000000 0 = some 0xFFFFFFFFFFFFFFFF := by decide +kernel
/-- F36, F38 to F41. -/
theorem test_itof : x3 0x70C20000 3 0 = some 0x4008000000000000 ∧
    x3 0x70C20000 0x0020000000000001 0 = some 0x4340000000000000 ∧
    x3 0x70C20000 0x8000000000000400 0 = some 0x43E0000000000000 ∧
    x3 0x70C20000 0x8000000000000401 0 = some 0x43E0000000000001 ∧
    x3 0x70C20000 0xFFFFFFFFFFFFFFFF 0 = some 0x43F0000000000000 := by decide +kernel
/-- L1. -/
theorem test_and : x3 0x78C22000 0xF0F0 0xFF00 = some 0xF000 := by decide
/-- L2. -/
theorem test_or : x3 0x80C22000 0xF0F0 0xFF00 = some 0xFFF0 := by decide
/-- L3. -/
theorem test_xor : x3 0x88C22000 0xF0F0 0xFF00 = some 0x0FF0 := by decide
/-- L6. -/
theorem test_not : x3 0x90C20000 0x00FF00FF00FF00FF 0 = some 0xFF00FF00FF00FF00 := by decide
/-- L7 to L9, L11. -/
theorem test_shl : x3 0x98C22000 1 63 = some 0x8000000000000000 ∧ x3 0x98C22000 1 64 = some 0 ∧
    x3 0x98C22000 1 0xFFFFFFFFFFFFFFFF = some 0 ∧
    x3 0x98C22000 0xFFFFFFFFFFFFFFFF 4 = some 0xFFFFFFFFFFFFFFF0 := by decide
/-- L12 to L14, L16. -/
theorem test_shr : x3 0xA0C22000 0x8000000000000000 63 = some 1 ∧
    x3 0xA0C22000 0xFFFFFFFFFFFFFFFF 1 = some 0x7FFFFFFFFFFFFFFF ∧
    x3 0xA0C22000 0xFFFFFFFFFFFFFFFF 64 = some 0 ∧ x3 0xA0C22000 0x1234 200 = some 0 := by decide

/-- Eight bytes at 32, as M2, M3 and C6 lay them out. -/
def eight : Memory := [(32, 0x88), (33, 0x77), (34, 0x66), (35, 0x55), (36, 0x44), (37, 0x33), (38, 0x22), (39, 0x11)]

/-- M2, M3, M6. -/
theorem test_ld : (after (machineAt 0xA8C40000 [(2, 32)] eight)).map (·.reg 3) = some 0x1122334455667788 ∧
    (after (machineAt 0xA8C40000 [(2, 33)] eight)).map (·.reg 3) = some 0x0011223344556677 ∧
    causeAfter 0xA8C40000 [(2, 60)] = some (.memoryFault .load 60) := by decide
/-- C6: a load of register 31 is an indirect jump. -/
theorem test_ld_jump : (after (machineAt 0xAFC40000 [(2, 32)] [(32, 0x28)])).map (·.pc) = some 40 := by decide
/-- M1. -/
theorem test_st : (after (machineAt 0xB0820000 [(2, 56), (1, 0x1122334455667788)])).map
    (fun t => (List.range 8).map (fun k => t.byteAt (56 + k))) =
      some [0x88, 0x77, 0x66, 0x55, 0x44, 0x33, 0x22, 0x11] := by decide
/-- M5, M7: the sum is not wrapped, and no byte is written. -/
theorem test_st_fault : causeAfter 0xB0820000 [(2, 0xFFFFFFFFFFFFFFFC)] =
      some (.memoryFault .store 0xFFFFFFFFFFFFFFFC) ∧
    (after (machineAt 0xB0820000 [(2, 57), (1, 0x1122334455667788)])).map (·.mem) =
      some (machineAt 0xB0820000 []).mem := by decide
/-- M8: two bytes remain. -/
theorem test_fetch_fault : (after (machine [(31, 62)])).map (fun t => (t.run, t.pc)) =
    some (.faulted ⟨.memoryFault .fetch 62, 62, none⟩, 62) := by decide
/-- C1. -/
theorem test_ldi : regAfter 3 0xB8FFFFFF [(3, 0xFFFFFFFFFFFFFFFF)] = some 0x3FFFFF := by decide
/-- C2, C3. -/
theorem test_mov : regAfter 31 0xC7CA0000 [(5, 8), (31, 40)] = some 8 ∧ regAfter 5 0xC17E0000 [(31, 40)] = some 44 := by
  decide
/-- S6. -/
theorem test_jnz : regAfter 31 0xC9020000 [(4, 16), (31, 24)] = some 28 ∧
    regAfter 31 0xC9020000 [(4, 16), (1, 3), (31, 24)] = some 16 := by decide
/-- C4, C5. -/
theorem test_jnz_pc : regAfter 31 0xC97E0000 [(5, 12)] = some 12 ∧ regAfter 31 0xCFC20000 [(1, 9)] = some 4 := by decide
/-- C8, C9 and the opcodes between them. -/
theorem test_reserved : causeAfter 0xD0000000 [] = some (.reservedOpcode 26) ∧
    causeAfter 0xD8000000 [] = some (.reservedOpcode 27) ∧ causeAfter 0xE0000000 [] = some (.reservedOpcode 28) ∧
    causeAfter 0xE8000000 [] = some (.reservedOpcode 29) ∧ causeAfter 0xF0000000 [] = some (.reservedOpcode 30) ∧
    causeAfter 0xFFFFFFFF [] = some (.reservedOpcode 31) ∧ regAfter 31 0xFFFFFFFF [] = some 0 := by decide

/-! ### The assembler and construction -/

/-- S8, S9, C10, R95: positional and named fields, and the immediate that does not fit. -/
theorem test_assemble : Asm.assemble "add r3, r1, r2".toList = some 0x20C22000 ∧
    Asm.assemble "ldi r0, imm=5".toList = some 0xB8000005 ∧ Asm.assemble "st d=r2, a=r1".toList = some 0xB0820000 ∧
    Asm.assemble "sys d=r0, imm=1".toList = some 0x08000001 ∧ Asm.assemble "ldi r0, 4194304".toList = none ∧
    Asm.assemble "add r3, r1".toList = none ∧
    Asm.assemble "add".toList = none := by
  decide +kernel
/-- R96. -/
theorem test_assemble_pseudo : Asm.assemble "j r5".toList = some 0xC7CA0000 ∧
    Asm.assemble "rdpc r5".toList = some 0xC17E0000 ∧ Asm.assemble "halt".toList = some 0x08000001 ∧
    Asm.assemble ".word 0xD0000000".toList = some 0xD0000000 := by decide +kernel

/-- Construction parameters with the size and entry point given. -/
def params (size : Fin (2 ^ 64)) (pc : Word) : Params := ⟨size, [], pc, Vector.replicate 31 7⟩

/-- R225, R261. -/
theorem test_construct : State.construct (params 0 0) = .error .memorySize ∧
    State.construct (params 8 8) = .error .initialPc ∧
    ((State.construct (params 8 4)).toOption.map (fun s => (s.reg 0, s.reg 30, s.pc))) = some (7, 7, 4) := by decide

/-! ### Witnesses: hypotheses of the statements, met together -/

/-- The words of a machine are where its next step fetches. -/
theorem wordAt_nop : WordAt (machine [(31, 60)]) 0 := by unfold WordAt; decide

theorem witness_DecodeOfEncodeIsIdentity : (Instr.ldi 31 (2 ^ 22 - 1)).wellFormed = true := by decide
theorem witness_IgnoredBitsDoNotMatter :
    ((0x20C22000 : InsnWord) ^^^ 0x20C22FFF) &&& Claims.readMask 0x20C22000 = 0 ∧
    (0x20C22000 : InsnWord) ≠ 0x20C22FFF ∧ bits 0xB8400005 31 27 ∈ opsI ∧ bits 0x0FFFFFFF 31 27 ∈ opsI := by decide
theorem witness_BytesDecodeLittleEndian : ([] : List Byte).length < 4 ∧ ([1, 2, 3] : List Byte).length < 4 := by decide
/-- The last four bytes of memory. -/
theorem witness_StepRunsTheDecodedInstruction :
    (machine [(31, 60)]).run = .running ∧ WordAt (machine [(31, 60)]) 0 := ⟨rfl, wordAt_nop⟩
theorem witness_FetchChecksFourBytesAtThePc :
    (machine [(31, 60)]).pc.toNat + 4 ≤ (machine [(31, 60)]).memSize.val ∧
    (machine [(31, 61)]).memSize.val < (machine [(31, 61)]).pc.toNat + 4 ∧ (machine [(31, 61)]).run = .running := by
  decide
theorem inv_storing : (machineAt 0xB0820000 [(2, 56), (1, 7)]).Inv :=
  ⟨by decide, by decide, by decide, rfl, trivial⟩
theorem witness_StepKeepsTheInvariant : ∃ t, (machineAt 0xB0820000 [(2, 56), (1, 7)]).Inv ∧
    step (machineAt 0xB0820000 [(2, 56), (1, 7)]) = .next t := ⟨_, inv_storing, rfl⟩
theorem witness_ConstructionMeetsTheInvariant :
    (⟨8, [(7, 1)], 7, Vector.replicate 31 7⟩ : Params).legalMem ∧
    ∃ s, State.construct ⟨8, [(7, 1)], 7, Vector.replicate 31 7⟩ = .ok s := ⟨by decide, _, rfl⟩
theorem witness_TerminalStatesAreFinal :
    ({ machine [] with run := .halted 0 } : State).run ≠ .running ∧
    ({ machine [] with run := .aborted 9 } : State).run ≠ .running := by decide
/-- A step of `sdiv` by zero, and a fetch past the end. -/
theorem witness_FaultsArePrecise :
    (∃ t r, (machineAt 0x10C22000 [(1, 5)]).run = .running ∧ step (machineAt 0x10C22000 [(1, 5)]) = .next t ∧
      t.run = .faulted r) ∧
    ∃ t r, (machine [(31, 61)]).run = .running ∧ step (machine [(31, 61)]) = .next t ∧ t.run = .faulted r :=
  ⟨⟨_, _, rfl, rfl, rfl⟩, ⟨_, _, rfl, rfl, rfl⟩⟩
/-- A load from the last eight bytes, which does not fault, and one address further, which does. -/
theorem witness_StepFaultsExactlyWhenTheRulesSay :
    (machineAt 0xA8C40000 [(2, 56)]).run = .running ∧ WordAt (machineAt 0xA8C40000 [(2, 56)]) 0xA8C40000 ∧
    expectedFault (machineAt 0xA8C40000 [(2, 56)]) 0xA8C40000 = none ∧
    WordAt (machineAt 0xA8C40000 [(2, 57)]) 0xA8C40000 ∧
    expectedFault (machineAt 0xA8C40000 [(2, 57)]) 0xA8C40000 = some (.memoryFault .load 57) := by
  unfold WordAt; decide
/-- The four kinds of code. -/
theorem witness_RunStateEnteredOnlyBySys : ∀ w ∈ [0x08000000, 0x08000001, 0x08000002, 0x08000003, 0x083FFFFF],
    (machineAt w []).run = .running ∧ WordAt (machineAt w []) (BitVec.ofNat 32 w) ∧ (after (machineAt w [])).isSome := by
  unfold WordAt; decide
theorem witness_MemoryChangesOnlyByStore : ∃ t, step (machineAt 0xB0820000 [(2, 56), (1, 7)]) = .next t ∧
    t.byteAt 56 ≠ (machineAt 0xB0820000 [(2, 56), (1, 7)]).byteAt 56 := ⟨_, rfl, by decide⟩
theorem witness_OnlyHypercall3EmitsALine : ∀ w ∈ [0x08C00002, 0x08C00003, 0x08C00004],
    (machineAt w []).run = .running ∧ WordAt (machineAt w []) (BitVec.ofNat 32 w) ∧ (after (machineAt w [])).isSome := by
  unfold WordAt; decide
theorem witness_MemorySizeNeverChanges : ∃ t, Reaches (machine []) t ∧ t.pc = 4 := ⟨_, .tail .refl rfl, by decide⟩
/-- A register that is not the destination, and the one bits 26:22 name in a word with no destination. -/
theorem witness_OnlyTheDestinationIsWritten :
    WordAt (machineAt 0x20C22000 []) 0x20C22000 ∧ (after (machineAt 0x20C22000 [])).isSome ∧
    (4 : Reg) ≠ 31 ∧ (4 : Reg) ≠ regAt 0x20C22000 26 22 ∧
    WordAt (machineAt 0xB0820000 []) 0xB0820000 ∧ (after (machineAt 0xB0820000 [])).isSome ∧
    regAt 0xB0820000 26 22 ≠ 31 ∧ bits 0xB0820000 31 27 ∈ [0, 1, 22, 25] ∧
    WordAt (machineAt 0xD0C00000 []) 0xD0C00000 ∧ (after (machineAt 0xD0C00000 [])).isSome ∧
    regAt 0xD0C00000 26 22 ≠ 31 ∧ 26 ≤ bits 0xD0C00000 31 27 := by
  unfold WordAt; decide
/-- `st`, `add r3`, and `jnz` not taken, the last at the end of memory. -/
theorem witness_SequentialFlow :
    WordAt (machineAt 0xB0820000 []) 0xB0820000 ∧ runAfter 0xB0820000 [] = some .running ∧
    bits 0xB0820000 31 27 ∈ [0, 1, 22] ∧
    WordAt (machineAt 0x20C22000 []) 0x20C22000 ∧ runAfter 0x20C22000 [] = some .running ∧
    bits 0x20C22000 31 27 ≠ 25 ∧ bits 0x20C22000 26 22 ≠ 31 ∧
    WordAt (machineAt 0xC9020000 [(31, 60)]) 0xC9020000 ∧ runAfter 0xC9020000 [(31, 60)] = some .running ∧
    bits 0xC9020000 31 27 = 25 ∧ afterAdvance (machineAt 0xC9020000 [(31, 60)]) (regAt 0xC9020000 21 17) = 0 := by
  unfold WordAt; decide
theorem witness_WritingRegister31Jumps :
    (∃ t, Instr.udiv ∈ destR3 ∧ (machine [(2, 1)]).run = .running ∧ exec (.udiv 3 1 2) (machine [(2, 1)]) = .next t ∧
      t.run = .running) ∧
    (∃ t, Instr.ld ∈ destR2 ∧ (machine [(2, 56)]).run = .running ∧ exec (.ld 3 2) (machine [(2, 56)]) = .next t ∧
      t.run = .running) ∧
    ∃ t, (machine [(2, 56)]).run = .running ∧ t.run = .running ∧ (∀ r, t.run ≠ .faulted r) ∧
      exec (.st 2 1) (machine [(2, 56)]) = .next t := by
  refine ⟨⟨_, by simp [destR3], rfl, rfl, rfl⟩, ⟨_, by simp [destR2], rfl, rfl, rfl⟩,
    (machine [(2, 56)]).stored 56 0, rfl, rfl, fun r => ?_, rfl⟩
  rw [show ((machine [(2, 56)]).stored 56 0).run = .running from rfl]
  nofun
/-- Two machines that differ in the lines emitted. -/
theorem witness_StepReadsOnlyRegistersMemoryAndSize :
    (machine []).run = .running ∧ ({ machine [] with diag := [['a']] } : State).run = .running ∧ (machine []).mem.wf ∧
    (∀ r, ({ machine [] with diag := [['a']] } : State).reg r = (machine []).reg r) ∧
    SameBytes (machine []) { machine [] with diag := [['a']] } ∧ ({ machine [] with diag := [['a']] } : State) ≠ machine [] :=
  ⟨rfl, rfl, by decide, fun _ => rfl, fun _ => rfl, by decide⟩
theorem witness_EqualBytesAreEqualMemories :
    Memory.wf [(0, 1), (63, 255)] ∧ ∀ x, Memory.read [(0, 1), (63, 255)] x = Memory.read [(0, 1), (63, 255)] x :=
  ⟨by decide, fun _ => rfl⟩
theorem witness_FetchWordRunsNext : (machine [(31, 60)] eight).mem.wf ∧
    (machine [(31, 60)] eight).pc.toNat + 4 ≤ (machine [(31, 60)] eight).memSize.val := by decide

/-- A word of each format, and the fields it encodes. -/
theorem witness_Encodes :
    bits 0x07FFFFFF 31 27 = 0 ∧
    bits 0x20C22000 31 27 = 4 ∧ (3 : Reg).val = bits 0x20C22000 26 22 ∧ (1 : Reg).val = bits 0x20C22000 21 17 ∧
    (2 : Reg).val = bits 0x20C22000 16 12 ∧
    bits 0xA8C40000 31 27 = 21 ∧ (3 : Reg).val = bits 0xA8C40000 26 22 ∧ (2 : Reg).val = bits 0xA8C40000 21 17 ∧
    bits 0xB8FFFFFF 31 27 = 23 ∧ (3 : Reg).val = bits 0xB8FFFFFF 26 22 := by decide
theorem witness_NopDoesNothing : bits 0x07FFFFFF 31 27 = 0 := by decide
theorem witness_SysOutcomes : bits 0x08C00003 31 27 = 1 ∧ (3 : Reg).val = bits 0x08C00003 26 22 ∧
    ∀ imm ∈ [0, 1, 2, 3, 2 ^ 22 - 1], imm < 2 ^ 22 := by decide
theorem witness_ReservedOpcodesFault : bits 0xD0000000 31 27 = 26 ∧ bits 0xFFFFFFFF 31 27 = 31 := by decide
theorem witness_AddSubMulWrapModulo : bits 0x20C22000 31 27 = 4 ∧ bits 0x28C22000 31 27 = 5 ∧
    bits 0x30C22000 31 27 = 6 := by decide
theorem witness_UnsignedDivision : bits 0x38C22000 31 27 = 7 ∧ bits 0x40C22000 31 27 = 8 ∧
    (machine [(2, 1)]).reg 2 ≠ 0 ∧ (machine []).reg 2 = 0 := by decide
theorem witness_SignedDivision : bits 0x10C22000 31 27 = 2 ∧ bits 0x18C22000 31 27 = 3 ∧
    (machine [(1, 0x8000000000000000), (2, 1)]).reg 2 ≠ 0 ∧
    ¬ ((machine [(1, 0x8000000000000000), (2, 1)]).reg 1 = 0x8000000000000000 ∧
      (machine [(1, 0x8000000000000000), (2, 1)]).reg 2 = 0xFFFFFFFFFFFFFFFF) ∧
    (machine []).reg 2 = 0 ∧
    (machine [(1, 0x8000000000000000), (2, 0xFFFFFFFFFFFFFFFF)]).reg 1 = 0x8000000000000000 ∧
    (machine [(1, 0x8000000000000000), (2, 0xFFFFFFFFFFFFFFFF)]).reg 2 = 0xFFFFFFFFFFFFFFFF := by decide
theorem witness_SignedQuotientAndRemainderLaw :
    (machine [(1, 0x8000000000000000), (2, 1)]).reg 2 ≠ 0 ∧
    ¬ (((machine [(1, 0x8000000000000000), (2, 1)]).reg 1).toInt = -2 ^ 63 ∧
      ((machine [(1, 0x8000000000000000), (2, 1)]).reg 2).toInt = -1) ∧
    ((machine [(1, 0x8000000000000000), (2, 0xFFFFFFFFFFFFFFFF)]).reg 1).toInt = -2 ^ 63 ∧
    ((machine [(1, 0x8000000000000000), (2, 0xFFFFFFFFFFFFFFFF)]).reg 2).toInt = -1 := by decide
theorem witness_BitwiseLogic : bits 0x78C22000 31 27 = 15 ∧ bits 0x80C22000 31 27 = 16 ∧ bits 0x88C22000 31 27 = 17 ∧
    bits 0x90C20000 31 27 = 18 := by decide
theorem witness_ShiftsUseTheWholeAmount : bits 0x98C22000 31 27 = 19 ∧ bits 0xA0C22000 31 27 = 20 ∧
    ((machine [(2, 63)]).reg 2).toNat < 64 ∧ 64 ≤ ((machine [(2, 64)]).reg 2).toNat := by decide

/-- The largest finite value and the smallest subnormal; the divisor is not zero. -/
theorem witness_FloatSumsAreRoundedToNearestEven : bits 0x48C22000 31 27 = 9 ∧ bits 0x50C22000 31 27 = 10 ∧
    IsFin ((machine [(1, 0x7FEFFFFFFFFFFFFF), (2, 1)]).reg 1) ∧ IsFin ((machine [(1, 0x7FEFFFFFFFFFFFFF), (2, 1)]).reg 2) := by
  unfold IsFin; decide
theorem witness_FloatProductsAreRoundedToNearestEven : bits 0x58C22000 31 27 = 11 ∧ bits 0x60C22000 31 27 = 12 ∧
    IsFin ((machine [(1, 0x7FEFFFFFFFFFFFFF), (2, 1)]).reg 1) ∧
    IsFin ((machine [(1, 0x7FEFFFFFFFFFFFFF), (2, 1)]).reg 2) ∧
    ¬ IsZero ((machine [(1, 0x7FEFFFFFFFFFFFFF), (2, 1)]).reg 2) := by
  unfold IsFin IsZero; decide
/-- Infinity and one, no invalid operation; infinity and zero for `fdiv`; one over zero and over infinity. -/
theorem witness_FloatInfinitiesFollowIeee :
    ¬ IsNaN 0x7FF0000000000000 ∧ ¬ IsNaN 0x3FF0000000000000 ∧ ¬ IsNaN 0 ∧
    IsInf 0x7FF0000000000000 ∧ ¬ IsInf 0x3FF0000000000000 ∧ IsZero 0 ∧ ¬ IsZero 0x3FF0000000000000 ∧
    ¬ Invalid 9 0x7FF0000000000000 0x3FF0000000000000 ∧ ¬ Invalid 9 0x7FF0000000000000 0x7FF0000000000000 ∧
    ¬ Invalid 10 0x3FF0000000000000 0x7FF0000000000000 ∧ ¬ Invalid 11 0x7FF0000000000000 0x3FF0000000000000 ∧
    ¬ Invalid 12 0x7FF0000000000000 0 ∧ ¬ Invalid 12 0x3FF0000000000000 0 ∧
    ¬ Invalid 12 0x3FF0000000000000 0x7FF0000000000000 := by
  and_intros <;> first | decide | (simp only [Invalid, IsNaN, IsInf, IsZero]; decide)
/-- The NaN rule's cases, at the edges of the NaN patterns. -/
theorem witness_FloatResultsFollowTheNaNRule : IsNaN 0x7FF0000000000001 ∧ IsNaN 0xFFFFFFFFFFFFFFFF ∧
    ¬ IsNaN 0x7FF0000000000000 ∧ Invalid 9 0x7FF0000000000000 0xFFF0000000000000 ∧
    Invalid 10 0x7FF0000000000000 0x7FF0000000000000 ∧ Invalid 11 0x8000000000000000 0x7FF0000000000000 ∧
    Invalid 12 0 0 ∧ Invalid 12 0x7FF0000000000000 0xFFF0000000000000 := by
  and_intros <;> first | decide | (simp only [Invalid, IsNaN, IsInf, IsZero]; decide)

/-- The value of -1.0. -/
theorem value_minus_one : value 0xBFF0000000000000 = -1 := by
  have he : expOf 0xBFF0000000000000 = 1023 := by decide
  have hf : fracOf 0xBFF0000000000000 = 0 := by decide
  have hs : signOf 0xBFF0000000000000 = true := by decide
  simp only [value, he, hf, hs]
  norm_num
/-- The value of -0.5. -/
theorem value_minus_half : value 0xBFE0000000000000 = -1 / 2 := by
  have he : expOf 0xBFE0000000000000 = 1022 := by decide
  have hf : fracOf 0xBFE0000000000000 = 0 := by decide
  have hs : signOf 0xBFE0000000000000 = true := by decide
  simp only [value, he, hf, hs]
  norm_num
/-- The value of 2^64. -/
theorem value_two_pow_64 : value 0x43F0000000000000 = 2 ^ 64 := by
  have he : expOf 0x43F0000000000000 = 1087 := by decide
  have hf : fracOf 0x43F0000000000000 = 0 := by decide
  have hs : signOf 0x43F0000000000000 = false := by decide
  simp only [value, he, hf, hs]
  norm_num
theorem witness_FtoiTruncatesAndSaturates : bits 0x68C20000 31 27 = 13 ∧ IsNaN 0x7FF8000000000000 ∧
    IsInf 0x7FF0000000000000 ∧ IsInf 0xFFF0000000000000 ∧
    (IsFin 0xBFF0000000000000 ∧ value 0xBFF0000000000000 ≤ -1) ∧
    (IsFin 0x43F0000000000000 ∧ 2 ^ 64 ≤ value 0x43F0000000000000) ∧
    (IsFin 0xBFE0000000000000 ∧ -1 < value 0xBFE0000000000000 ∧ value 0xBFE0000000000000 < 2 ^ 64) := by
  rw [value_minus_one, value_minus_half, value_two_pow_64]
  unfold IsNaN IsInf IsFin
  refine ⟨by decide, by decide, by decide, by decide, ⟨by decide, le_refl _⟩, ⟨by decide, le_refl _⟩, by decide, ?_, ?_⟩ <;>
    norm_num
theorem witness_ItofRoundsToNearestEven : bits 0x70C20000 31 27 = 14 := by decide
/-- 2^53 and 2^53 + 1. -/
theorem witness_FtoiOfItofIsIdentityBelow2Pow53 : ((machine [(1, 0x0020000000000000)]).reg 1).toNat ≤ 2 ^ 53 ∧
    ((machine [(1, 0x0020000000000001)]).reg 1).toNat = 2 ^ 53 + 1 := by decide
/-- R149's two examples, by one step each. -/
theorem test_ftoi_of_itof : (x3 0x70C20000 0x0020000000000000 0).bind (fun v => x3 0x68C20000 v 0) =
      some 0x0020000000000000 ∧
    (x3 0x70C20000 0x0020000000000001 0).bind (fun v => x3 0x68C20000 v 0) = some 0x0020000000000000 := by
  decide +kernel

/-- The last eight bytes of memory, and one address further. -/
theorem witness_LoadReadsEightBytes : bits 0xA8C40000 31 27 = 21 ∧
    ((machine [(2, 56)]).reg 2).toNat + 8 ≤ (machine [(2, 56)]).memSize.val ∧
    (machine [(2, 57)]).memSize.val < ((machine [(2, 57)]).reg 2).toNat + 8 := by decide
theorem witness_StoreWritesEightBytes : bits 0xB0820000 31 27 = 22 ∧ (machine [(2, 56)] eight).mem.wf ∧
    ((machine [(2, 56)] eight).reg 2).toNat + 8 ≤ (machine [(2, 56)] eight).memSize.val ∧
    (machine [(2, 57)]).memSize.val < ((machine [(2, 57)]).reg 2).toNat + 8 := by decide
/-- The state right after the store is such a later state `u`. -/
theorem witness_StoreThenLoadReturnsTheValue : (machine [(2, 56), (1, 7)]).mem.wf ∧
    ((machine [(2, 56), (1, 7)]).reg 2).toNat + 8 ≤ (machine [(2, 56), (1, 7)]).memSize.val ∧
    ∃ t, exec (.st 2 1) (machine [(2, 56), (1, 7)]) = .next t ∧ t.reg 2 = (machine [(2, 56), (1, 7)]).reg 2 ∧
      t.memSize = (machine [(2, 56), (1, 7)]).memSize := ⟨by decide, by decide, _, rfl, rfl, rfl⟩
/-- A store at 55 leaves room for the byte at 63; the program counter at 55 and at 59, and a load from 56. -/
theorem witness_MixedWidthAccessesSeeTheBytes : (machine [(2, 55), (3, 56)]).mem.wf ∧
    ((machine [(2, 55), (3, 56)]).reg 2).toNat + 8 ≤ (machine [(2, 55), (3, 56)]).memSize.val ∧
    ((machine [(2, 55), (3, 56)]).reg 3).toNat = ((machine [(2, 55), (3, 56)]).reg 2).toNat + 1 ∧
    ((machine [(2, 55), (3, 56)]).reg 2).toNat + 9 ≤ (machine [(2, 55), (3, 56)]).memSize.val ∧
    ((machine [(2, 55), (3, 56)]).setPc 55).pc = (machine [(2, 55), (3, 56)]).reg 2 ∧
    ((machine [(2, 55), (3, 56)]).setPc 59).pc.toNat = ((machine [(2, 55), (3, 56)]).reg 2).toNat + 4 := by decide
theorem witness_LoadImmediateAndMove : bits 0xB8FFFFFF 31 27 = 23 ∧ bits 0xC7CA0000 31 27 = 24 ∧ 2 ^ 22 - 1 < 2 ^ 22 := by
  decide
theorem witness_JumpIfNotZero : bits 0xC9020000 31 27 = 25 ∧ ((machine [(1, 0x8000000000000000)]).reg 1).toNat ≠ 0 ∧
    ((machine []).reg 1).toNat = 0 ∧ (machine [(31, 4)]).pc ≠ 0 := by decide
theorem witness_PseudoInstructionEffects : 0 < 2 ^ 22 ∧ 2 ^ 22 - 1 < 2 ^ 22 := by decide
/-- Size 0; the entry point at the size; the entry point in the last three bytes. -/
theorem witness_ConstructionChecks : (params 0 0).memSize.val = 0 ∧
    (0 < (params 8 8).memSize.val ∧ (params 8 8).memSize.val ≤ (params 8 8).initPc.toNat) ∧
    ((params 8 5).initPc.toNat < (params 8 5).memSize.val ∧ (params 8 5).memSize.val < (params 8 5).initPc.toNat + 4) ∧
    (params 1 0).initPc.toNat < (params 1 0).memSize.val := by decide
theorem witness_ConstructionValues : ∃ s, State.construct (params 8 7) = .ok s := ⟨_, rfl⟩
theorem witness_ResetIsAConstruction :
    ∃ p : Params, p.memSize.val = 2 ^ 64 - 1 ∧ p.initMem = [] ∧ p.initPc = 0 ∧ ∀ i : Fin 31, p.initGpr[i.val] = 0 :=
  ⟨⟨⟨2 ^ 64 - 1, by decide⟩, [], 0, Vector.replicate 31 0⟩, by decide, rfl, rfl, by decide⟩

end Sys2Proof.Tests
end

section
/-! Construction: when it makes a core, which core that is, and that the core meets the invariant (R261 to R266). -/

namespace Sys2Proof.Machine

/-- Construction succeeds exactly with an entry point inside memory (R261), and then makes `Params.core`. -/
theorem State.construct_eq_ok_iff {p : Params} {s : State} :
    State.construct p = .ok s ↔ p.initPc.toNat < p.memSize.val ∧ s = p.core := by
  unfold State.construct
  split
  case isTrue h0 => exact ⟨nofun, fun ⟨hpc, _⟩ => by omega⟩
  case isFalse h0 =>
    split
    case isTrue hpc => exact ⟨nofun, fun ⟨hlt, _⟩ => by omega⟩
    case isFalse hpc => exact ⟨fun h => ⟨by omega, (Except.ok.inj h).symm⟩, fun ⟨_, hs⟩ => by rw [hs]⟩

theorem Params.core_inv {p : Params} (hm : p.legalMem) (hs : 0 < p.memSize.val) : p.core.Inv where
  memWf := hm.1
  memInside := hm.2
  memSizePos := hs
  betweenSteps := rfl
  runLegal := trivial

@[simp] theorem State.reg_reset (r : Reg) : State.reset.reg r = 0 := by
  simp [State.reg, State.reset, Config.resetGpr, Config.resetPc]

theorem Params.reg_core (p : Params) (r : Reg) :
    p.core.reg r = if h : r.val < 31 then p.initGpr[r.val] else p.initPc := Vector.getElem_push ..

/-- The parameters whose core is the one after reset (logs 1 to 4). -/
theorem Params.core_eq_reset {p : Params} (hsize : p.memSize.val = 2 ^ 64 - 1) (hmem : p.initMem = [])
    (hpc : p.initPc = 0) (hgpr : ∀ i : Fin 31, p.initGpr[i.val] = 0) : p.core = State.reset := by
  have hreg : ∀ r, p.core.reg r = State.reset.reg r := fun r => by
    rw [Params.reg_core, State.reg_reset]
    split
    case isTrue h => exact hgpr ⟨r.val, h⟩
    case isFalse => exact hpc
  have hregs : p.core.regs = State.reset.regs := State.regs_ext hreg
  have hs : p.memSize = State.reset.memSize := Fin.ext hsize
  rw [State.mk.injEq]
  exact ⟨hregs, hmem, hs, rfl, rfl, rfl⟩

end Sys2Proof.Machine

namespace Sys2Proof.Proofs

open Sys2Proof.Machine

/-- Settles O11: a successful construction has `INIT_PC < MEM_SIZE`, so the memory is not empty, and the rest of the
invariant is the premise on the initial memory or how the core is built. -/
theorem constructionMeetsTheInvariant : Obligations.ConstructionMeetsTheInvariant := by
  intro p s hm hs
  obtain ⟨hpc, rfl⟩ := State.construct_eq_ok_iff.1 hs
  exact Params.core_inv hm (Nat.zero_lt_of_lt hpc)

/-- Settles O51: the entry point 0 is inside the memory, so the construction makes the parameters' core. -/
theorem resetIsAConstruction : Obligations.ResetIsAConstruction := by
  intro p hsize hmem hpc hgpr
  refine State.construct_eq_ok_iff.2 ⟨?_, (Params.core_eq_reset hsize hmem hpc hgpr).symm⟩
  rw [hpc, hsize]
  decide

/-- The parameters of `State.reset` (logs 1 to 4). -/
def resetParams : Params where
  memSize := ⟨Config.resetMemSize, by decide⟩
  initMem := []
  initPc := Config.resetPc
  initGpr := Vector.replicate 31 Config.resetGpr

theorem construct_resetParams : State.construct resetParams = .ok State.reset :=
  resetIsAConstruction resetParams rfl rfl rfl fun i => Vector.getElem_replicate i.isLt

/-- Settles O10: the state after reset is a construction with an empty memory list, which is canonical. -/
theorem resetMeetsTheInvariant : Obligations.ResetMeetsTheInvariant :=
  constructionMeetsTheInvariant resetParams State.reset ⟨⟨.nil, nofun⟩, nofun⟩ construct_resetParams

end Sys2Proof.Proofs
end

section
/-! Words and outcomes as the statements read them: the fields of a word, and a write of one register. -/

namespace Sys2Proof.Claims

open Sys2Proof.Machine

/-- Every word of an R3 opcode decodes to that opcode's entry in the opcode map (R81, R84, R88). -/
theorem encodesR3_of_instrOf {f : Reg → Reg → Reg → Instr} (op : Fin 32)
    (h : ∀ d a b imm, instrOf op d a b imm = f d a b) : EncodesR3 op.val f := by
  intro w d a b hop hd ha hb
  have eop : opField w = op := Fin.ext hop
  have ed : dField w = d := Fin.ext hd.symm
  have ea : aField w = a := Fin.ext ha.symm
  have eb : bField w = b := Fin.ext hb.symm
  rw [decode, eop, ed, ea, eb, h]

theorem onlyReg_setReg (s : State) (d : Reg) (v : Word) : OnlyReg d s (s.setReg d v) :=
  ⟨fun r hr => by rw [State.reg_setReg, if_neg hr], fun _ => rfl, rfl, rfl, rfl, rfl⟩

/-- An instruction whose effect is to write `v` to `x[d]` completes, changes nothing else, and leaves `v` there. -/
theorem completes_setReg {i : Instr} {s : State} {d : Reg} {v : Word} {P : State → Prop}
    (hi : exec i s = .next (s.setReg d v)) (hP : ∀ t, t.reg d = v → P t) :
    Completes i s fun t => OnlyReg d s t ∧ P t :=
  ⟨_, hi, onlyReg_setReg s d v, hP _ (by rw [State.reg_setReg, if_pos rfl])⟩

end Sys2Proof.Claims
end

section
/-! Binary64 patterns as rational numbers: the value of a finite pattern in units of 2^-1074, and that
`Binary64.round` rounds to the nearest one, ties to even (R14, R147, log 12). -/

open Sys2Proof.Claims

namespace Sys2Proof.Machine.Binary64

/-! ### Signed units -/

theorem signed_add (neg : Bool) (m n : ℕ) : signed neg (m + n) = signed neg m + signed neg n := by
  cases neg
  · exact Nat.cast_add m n
  · simp only [signed, if_true, Nat.cast_add, neg_add]

theorem signed_mul (neg : Bool) (m n : ℕ) : signed neg (m * n) = signed neg m * n := by
  cases neg <;> simp [signed]

theorem signed_xor_mul (s t : Bool) (m n : ℕ) : signed (s != t) (m * n) = signed s m * signed t n := by
  cases s <;> cases t <;> simp [signed]

theorem signed_not (neg : Bool) (m : ℕ) : signed (!neg) m = -signed neg m := by
  cases neg <;> simp [signed]

theorem signed_eq_zero_iff (neg : Bool) (m : ℕ) : signed neg m = 0 ↔ m = 0 := by
  cases neg <;> simp [signed]

theorem abs_signed (neg : Bool) (m : ℕ) : |signed neg m| = m := by
  cases neg <;> simp [signed]

/-- An integer is its sign and its magnitude. -/
theorem signed_natAbs (z : ℤ) : signed (decide (z < 0)) z.natAbs = z := by
  rcases Int.lt_or_le z 0 with h | h
  · rw [decide_eq_true h, signed, if_pos rfl, Int.ofNat_natAbs_of_nonpos h.le, neg_neg]
  · rw [decide_eq_false h.not_gt, signed, if_neg (by decide), Int.natAbs_of_nonneg h]

theorem abs_signed_sub_same (s : Bool) (a b : ℕ) : |signed s a - signed s b| = |(a - b : ℤ)| := by
  cases s
  · rfl
  · rw [abs_sub_comm (a : ℤ)]
    exact congrArg abs (neg_sub_neg (a : ℤ) b)

/-- Two numbers of opposite signs are as far apart as the sum of their magnitudes. -/
theorem abs_signed_sub_of_ne {s t : Bool} (h : s ≠ t) (a b : ℕ) : |signed s a - signed t b| = a + b := by
  rw [Bool.eq_not.2 h, signed_not, abs_sub_comm, sub_neg_eq_add, ← signed_add, abs_signed, Nat.cast_add, add_comm]

/-! ### The value of a pattern -/

theorem signOf_eq_signBit (v : Word) : signOf v = signBit v := by
  rw [signOf, BitVec.getLsbD, Nat.testBit_eq_decide_div_mod_eq, signBit]
  have := v.isLt
  exact decide_eq_decide.2 (by omega)

theorem one_cast : ((one : ℕ) : ℚ) = 2 ^ 1074 := Nat.cast_pow 2 1074

theorem one_cast_pos : (0 : ℚ) < one := by
  rw [one_cast]
  positivity

theorem one_mul_cast_pos {den : ℕ} (hd : 0 < den) : (0 : ℚ) < one * den :=
  mul_pos one_cast_pos (Nat.cast_pos.2 hd)

/-- The units of 2^-1074 of a finite pattern, with their sign. -/
def units (v : Word) : ℤ := signed (signBit v) (magOf (v.toNat % 2 ^ 63))

/-- A finite pattern's value is its units of 2^-1074. -/
theorem value_mul_one (v : Word) : value v * one = units v := by
  have he : v.toNat % 2 ^ 63 / 2 ^ 52 = expOf v := by unfold expOf; omega
  have hf : v.toNat % 2 ^ 63 % 2 ^ 52 = fracOf v := by unfold fracOf; omega
  have hone : ((one : ℕ) : ℚ) = (2 : ℚ) ^ (1074 : ℤ) := one_cast.trans (zpow_natCast 2 1074).symm
  have hmag : (if expOf v = 0 then (fracOf v : ℚ) * 2 ^ (-1074 : ℤ)
      else ((2 ^ 52 + fracOf v : ℕ) : ℚ) * 2 ^ ((expOf v : ℤ) - 1075)) * one = magOf (v.toNat % 2 ^ 63) := by
    rw [magOf, he, hf, hone]
    split
    case isTrue => rw [mul_assoc, ← zpow_add₀ two_ne_zero]; simp
    case isFalse h =>
      rw [mul_assoc, ← zpow_add₀ two_ne_zero, Nat.cast_mul, Nat.cast_pow, ← zpow_natCast]
      congr 2
      omega
  rw [value, mul_assoc, hmag, signOf_eq_signBit, units, signed]
  split <;> simp

theorem ofBits_of_isFin {v : Word} (h : IsFin v) : ofBits v = .fin (signBit v) (magOf (v.toNat % 2 ^ 63)) :=
  ofBits_finite h

/-! ### Packed patterns -/

section Pack
variable (neg : Bool) {low : ℕ} (h : low < 2 ^ 63)
include h

theorem pack_mod : (pack neg low).toNat % 2 ^ 63 = low := by
  rw [pack_toNat neg h]
  split <;> omega

theorem signBit_pack : signBit (pack neg low) = neg := by
  rw [signBit, pack_toNat neg h]
  cases neg
  · simpa using h
  · simp

theorem expOf_pack : expOf (pack neg low) = low / 2 ^ 52 := by
  rw [expOf, pack_toNat neg h]
  split <;> omega

theorem fracOf_pack : fracOf (pack neg low) = low % 2 ^ 52 := by
  rw [fracOf, pack_toNat neg h]
  split <;> omega

theorem units_pack : units (pack neg low) = signed neg (magOf low) := by
  rw [units, signBit_pack neg h, pack_mod neg h]

end Pack

theorem isInf_infBits (neg : Bool) : IsInf (infBits neg) :=
  ⟨expOf_pack neg (by decide), fracOf_pack neg (by decide)⟩

theorem signOf_round (neg : Bool) (num den : ℕ) : signOf (round neg num den) = neg := by
  rw [signOf_eq_signBit]
  exact signBit_pack neg (Nat.lt_of_le_of_lt (roundLow_le ..) (by decide))

theorem zeroBits_eq_round (neg : Bool) : zeroBits neg = round neg 0 1 := rfl

/-! ### Rounding to nearest -/

/-- The magnitude of the rounded value, in units of 2^-1074. -/
def roundedMag (num den : ℕ) : ℕ := significand num den * 2 ^ scale num den

/-- No finite pattern's units, signs included, are nearer to `num / den` units than the rounded ones; and of two
equally near the rounded pattern is even. -/
theorem round_nearest_signed (neg : Bool) (num : ℕ) {den : ℕ} (hd : 0 < den) (w : Word) :
    |signed neg (roundedMag num den) * den - signed neg num| ≤ |units w * den - signed neg num| ∧
      (|units w * den - signed neg num| = |signed neg (roundedMag num den) * den - signed neg num| →
        units w ≠ signed neg (roundedMag num den) → (scale num den * 2 ^ 52 + significand num den) % 2 = 0) := by
  have near := round_nearest num hd
  change ∀ low, |(roundedMag num den * den : ℤ) - num| ≤ _ ∧ (_ = |(roundedMag num den * den : ℤ) - num| →
    magOf low ≠ roundedMag num den → _) at near
  rw [units, ← signed_mul, ← signed_mul, abs_signed_sub_same, Nat.cast_mul]
  by_cases hs : signBit w = neg
  · rw [hs, abs_signed_sub_same, Nat.cast_mul]
    obtain ⟨hle, htie⟩ := near (w.toNat % 2 ^ 63)
    exact ⟨hle, fun he hne => htie he fun hm => hne (by rw [hm])⟩
  · -- a pattern of the other sign is no nearer than zero, and as near only when it is a zero
    obtain ⟨hle, htie⟩ := near 0
    rw [show magOf 0 = 0 from rfl, Nat.cast_zero, zero_mul, zero_sub, abs_neg, Nat.abs_cast] at hle htie
    rw [abs_signed_sub_of_ne hs, Nat.cast_mul]
    generalize magOf (w.toNat % 2 ^ 63) = m
    have hm0 : (0 : ℤ) ≤ m * den := by positivity
    refine ⟨by linarith, fun he hne => htie (by linarith) fun hz => hne ?_⟩
    have hmul : m * den = 0 := by
      have : (m * den : ℤ) = 0 := by linarith
      exact_mod_cast this
    have hm : m = 0 := (Nat.mul_eq_zero.1 hmul).resolve_right hd.ne'
    rw [hm, ← hz, (signed_eq_zero_iff _ 0).2 rfl, (signed_eq_zero_iff _ 0).2 rfl]

/-- The overflow boundary of `RoundsTo` is half a unit of the last place above the largest finite value. -/
theorem overflowBoundary_mul_one : (2 ^ 1024 - 2 ^ 970 : ℚ) * one = ((2 ^ 54 - 1) * 2 ^ 2044 : ℕ) := by
  have hexp : ∀ j k : ℕ, (2 ^ (54 + j) - 2 ^ j : ℚ) * 2 ^ k = (2 ^ 54 - 1) * 2 ^ (j + k) := fun j k => by ring
  calc (2 ^ 1024 - 2 ^ 970 : ℚ) * one = (2 ^ 54 - 1) * 2 ^ 2044 := by rw [one_cast]; exact hexp 970 1074
    _ = ((2 ^ 54 - 1) * 2 ^ 2044 : ℕ) := by rw [Nat.cast_mul, Nat.cast_pow]; norm_num

section Scaled
variable {neg : Bool} {num den : ℕ} {r : ℚ} (hd : 0 < den) (hr : r * (one * den) = signed neg num)
include hd hr

/-- The overflow boundary of `RoundsTo` in units of 2^-1074. -/
theorem overflow_le_abs_iff : (2 ^ 1024 - 2 ^ 970 : ℚ) ≤ |r| ↔ (2 ^ 54 - 1) * 2 ^ 2044 * den ≤ num := by
  have hD := one_mul_cast_pos hd
  have habs : |r| * (one * den) = num := by
    calc |r| * (one * den) = |r * (one * den)| := by rw [abs_mul, abs_of_pos hD]
      _ = num := by rw [hr, ← Int.cast_abs, abs_signed, Int.cast_natCast]
  have hbound : (2 ^ 1024 - 2 ^ 970 : ℚ) * (one * den) = ((2 ^ 54 - 1) * 2 ^ 2044 * den : ℕ) := by
    rw [← mul_assoc, overflowBoundary_mul_one, Nat.cast_mul _ den]
  rw [← mul_le_mul_iff_left₀ hD, hbound, habs, Nat.cast_le]

/-- The distance of a finite pattern from `r`, in units of 2^-1074. -/
theorem abs_value_sub (w : Word) : |value w - r| * (one * den) = (|units w * den - signed neg num| : ℤ) := by
  have hD := one_mul_cast_pos hd
  have hdiff : (value w - r) * (one * den) = (units w * den - signed neg num : ℤ) := by
    rw [sub_mul, hr, ← mul_assoc, value_mul_one, Int.cast_sub, Int.cast_mul, Int.cast_natCast]
  rw [Int.cast_abs, ← hdiff, abs_mul, abs_of_pos hD]

/-- `Binary64.round` rounds to nearest, ties to even, and overflows to an infinity (R147). -/
theorem roundsTo_round : RoundsTo r (round neg num den) := by
  have hD := one_mul_cast_pos hd
  have hover := (overflow_le_abs_iff hd hr).trans (overflow_iff num hd).symm
  rw [RoundsTo, round, roundLow_eq]
  split
  case isTrue hbig =>
    have hinf := hover.1 hbig
    rw [Nat.min_eq_right hinf]
    exact isInf_infBits neg
  case isFalse hsmall =>
    have hfin := Nat.not_le.1 (mt hover.2 hsmall)
    rw [Nat.min_eq_left hfin.le]
    have hlt : infPattern < 2 ^ 63 := by decide
    have hexp : infPattern = 2047 * 2 ^ 52 := rfl
    have hunits : units (pack neg (scale num den * 2 ^ 52 + significand num den)) =
        signed neg (roundedMag num den) := by
      rw [units_pack neg (hfin.trans hlt), magOf_round num hd, roundedMag]
    refine ⟨?_, fun w _ => ?_⟩
    · rw [IsFin, expOf_pack neg (hfin.trans hlt)]
      omega
    · obtain ⟨hle, htie⟩ := round_nearest_signed neg num hd w
      rw [← hunits] at hle htie
      rw [← mul_le_mul_iff_left₀ hD, ← mul_left_inj' hD.ne', abs_value_sub hd hr, abs_value_sub hd hr,
        Int.cast_le, Int.cast_inj]
      refine ⟨hle, fun heq hne => ?_⟩
      have heven := htie heq fun hu => hne <|
        mul_right_cancel₀ one_cast_pos.ne' (by rw [value_mul_one, value_mul_one, hu])
      rw [pack_toNat neg (hfin.trans hlt)]
      split <;> omega

end Scaled

/-! ### The operations on finite operands -/

theorem signOf_flipSign (q : Word) : signOf (flipSign q) = !signOf q := by
  simp [signOf, flipSign]

theorem flipSign_mod (q : Word) : (flipSign q).toNat % 2 ^ 63 = q.toNat % 2 ^ 63 := by
  rw [flipSign, BitVec.toNat_xor, Nat.xor_mod_two_pow]
  exact Nat.xor_zero _

theorem expOf_flipSign (q : Word) : expOf (flipSign q) = expOf q := by
  have := flipSign_mod q
  unfold expOf
  omega

theorem value_flipSign (q : Word) : value (flipSign q) = -value q := by
  have hunits : units (flipSign q) = -units q := by
    rw [units, units, flipSign_mod, ← signOf_eq_signBit, signOf_flipSign, signOf_eq_signBit, signed_not]
  refine mul_right_cancel₀ one_cast_pos.ne' ?_
  rw [neg_mul, value_mul_one, value_mul_one, hunits, Int.cast_neg]

theorem magOf_ne_zero {q : Word} (h : ¬ IsZero q) : magOf (q.toNat % 2 ^ 63) ≠ 0 := by
  rw [IsZero, expOf, fracOf] at h
  rw [magOf]
  split
  case isTrue => omega
  case isFalse => exact (Nat.mul_pos (by omega) (by positivity)).ne'

theorem value_ne_zero {q : Word} (h : ¬ IsZero q) : value q ≠ 0 := fun hv => by
  have hu := value_mul_one q
  rw [hv, zero_mul, eq_comm, Int.cast_eq_zero, units, signed_eq_zero_iff] at hu
  exact magOf_ne_zero h hu

/-- The magnitude of a finite pattern in units: its value times 2^1074 under its own sign. -/
theorem signed_one_mul_value (q : Word) : (signed (signBit q) one : ℚ) * value q = magOf (q.toNat % 2 ^ 63) := by
  have hone : signed (signBit q) one = signed (signBit q) 1 * one := by rw [← signed_mul, one_mul]
  have hsq : signed (signBit q) 1 * units q = magOf (q.toNat % 2 ^ 63) := by
    rw [units, ← signed_xor_mul, one_mul, bne_self_eq_false]
    rfl
  rw [hone, Int.cast_mul, Int.cast_natCast, mul_assoc, mul_comm (one : ℚ), value_mul_one, ← Int.cast_mul, hsq,
    Int.cast_natCast]

section Finite
variable {p q : Word} (hp : IsFin p) (hq : IsFin q)
include hp hq

/-- The exact sum in units, rounded; an exact zero is -0 only when both signs are set (R141). -/
theorem add_of_isFin : add p q = if units p + units q = 0 then zeroBits (signBit p && signBit q)
    else round (decide (units p + units q < 0)) (units p + units q).natAbs 1 := by
  rw [add, ofBits_of_isFin hp, ofBits_of_isFin hq]
  rfl

theorem sub_of_isFin : sub p q = add p (flipSign q) := by
  have hf : IsFin (flipSign q) := by rwa [IsFin, expOf_flipSign]
  rw [sub, add, ofBits_of_isFin hp, ofBits_of_isFin hf]
  rfl

theorem mul_of_isFin : mul p q =
    round (signBit p != signBit q) (magOf (p.toNat % 2 ^ 63) * magOf (q.toNat % 2 ^ 63)) one := by
  rw [mul, ofBits_of_isFin hp, ofBits_of_isFin hq]
  rfl

theorem div_of_isFin (h0 : magOf (q.toNat % 2 ^ 63) ≠ 0) : div p q =
    round (signBit p != signBit q) (magOf (p.toNat % 2 ^ 63) * one) (magOf (q.toNat % 2 ^ 63)) := by
  rw [div, ofBits_of_isFin hp, ofBits_of_isFin hq, divValues, if_neg h0]
  rfl

/-- `fadd` of finite operands (R141, R147). -/
theorem add_spec : RoundsTo (value p + value q) (add p q) ∧ signOf (add p q) =
    (if value p + value q = 0 then signOf p && signOf q else decide (value p + value q < 0)) := by
  have hsum : (value p + value q) * one = (units p + units q : ℤ) := by
    rw [add_mul, value_mul_one, value_mul_one, Int.cast_add]
  have hzero : value p + value q = 0 ↔ units p + units q = 0 := by
    rw [← mul_left_inj' one_cast_pos.ne', hsum, zero_mul, Int.cast_eq_zero]
  have hneg : value p + value q < 0 ↔ units p + units q < 0 := by
    rw [← mul_lt_mul_iff_left₀ one_cast_pos, hsum, zero_mul, Int.cast_lt_zero]
  rw [add_of_isFin hp hq, signOf_eq_signBit p, signOf_eq_signBit q]
  simp only [hzero, hneg]
  split
  case isTrue hz =>
    rw [zeroBits_eq_round, hzero.2 hz]
    refine ⟨roundsTo_round Nat.one_pos ?_, signOf_round ..⟩
    rw [zero_mul, (signed_eq_zero_iff _ 0).2 rfl, Int.cast_zero]
  case isFalse =>
    refine ⟨roundsTo_round Nat.one_pos ?_, signOf_round ..⟩
    rw [signed_natAbs, Nat.cast_one, mul_one, hsum]

/-- `fsub` of finite operands: the sum with the sign of the second flipped (R142). -/
theorem sub_spec : RoundsTo (value p - value q) (sub p q) ∧ signOf (sub p q) =
    (if value p - value q = 0 then signOf p && !signOf q else decide (value p - value q < 0)) := by
  have hf : IsFin (flipSign q) := by rwa [IsFin, expOf_flipSign]
  have h := add_spec hp hf
  rwa [← sub_of_isFin hp hq, value_flipSign, signOf_flipSign, ← sub_eq_add_neg] at h

/-- `fmul` of finite operands (R143, R147). -/
theorem mul_spec : RoundsTo (value p * value q) (mul p q) ∧ signOf (mul p q) = (signOf p != signOf q) := by
  rw [mul_of_isFin hp hq, signOf_eq_signBit p, signOf_eq_signBit q]
  refine ⟨roundsTo_round (Nat.cast_pos.1 one_cast_pos) ?_, signOf_round ..⟩
  rw [signed_xor_mul, mul_mul_mul_comm, value_mul_one, value_mul_one, Int.cast_mul]
  rfl

/-- `fdiv` of finite operands, the divisor not a zero (R144, R147). -/
theorem div_spec (h0 : ¬ IsZero q) :
    RoundsTo (value p / value q) (div p q) ∧ signOf (div p q) = (signOf p != signOf q) := by
  have hmag := magOf_ne_zero h0
  have hq0 := value_ne_zero h0
  rw [div_of_isFin hp hq hmag, signOf_eq_signBit p, signOf_eq_signBit q]
  refine ⟨roundsTo_round (Nat.pos_of_ne_zero hmag) ?_, signOf_round ..⟩
  rw [div_mul_eq_mul_div, div_eq_iff hq0, signed_xor_mul, Int.cast_mul, mul_assoc _ _ (value q), signed_one_mul_value,
    ← mul_assoc, value_mul_one]
  rfl

end Finite

end Sys2Proof.Machine.Binary64
end

section
/-! The two statements on finite floating-point operands (R141 to R144, R147). -/

open Sys2Proof.Claims

namespace Sys2Proof.Proofs

open Sys2Proof.Machine

/-- Settles O36: the operands are exact units of 2^-1074, `fadd` rounds their integer sum, and `fsub` is `fadd` with the
second sign flipped. -/
theorem floatSumsAreRoundedToNearestEven : Obligations.FloatSumsAreRoundedToNearestEven := by
  refine ⟨encodesR3_of_instrOf 9 fun _ _ _ _ => rfl, encodesR3_of_instrOf 10 fun _ _ _ _ => rfl, ?_⟩
  intro s d a b ha hb
  exact ⟨completes_setReg rfl fun _ ht => ht ▸ Binary64.add_spec ha hb,
    completes_setReg rfl fun _ ht => ht ▸ Binary64.sub_spec ha hb⟩

/-- Settles O37: `fmul` rounds the integer product of the units over 2^1074, `fdiv` the quotient of the units. -/
theorem floatProductsAreRoundedToNearestEven : Obligations.FloatProductsAreRoundedToNearestEven := by
  refine ⟨encodesR3_of_instrOf 11 fun _ _ _ _ => rfl, encodesR3_of_instrOf 12 fun _ _ _ _ => rfl, ?_⟩
  intro s d a b ha hb
  exact ⟨completes_setReg rfl fun _ ht => ht ▸ Binary64.mul_spec ha hb,
    fun h0 => completes_setReg rfl fun _ ht => ht ▸ Binary64.div_spec ha hb h0⟩

end Sys2Proof.Proofs
end

section
/-! Words as the statements read them: a word's fields, what it decodes to and which register it writes, and the word a
fetch gives (R54, R56, R81, R88). -/

namespace Sys2Proof.Claims

open Sys2Proof.Machine

theorem opField_val_eq_bits (w : InsnWord) : (opField w).val = bits w 31 27 := rfl

theorem dField_val_eq_bits (w : InsnWord) : (dField w).val = bits w 26 22 := rfl

theorem immField_eq_bits (w : InsnWord) : immField w = bits w 21 0 := by
  rw [immField, bits, Nat.pow_zero, Nat.div_one]

@[simp] theorem regAt_eq_dField (w : InsnWord) : regAt w 26 22 = dField w := Fin.ext (Nat.mod_mod _ 32)

@[simp] theorem regAt_eq_aField (w : InsnWord) : regAt w 21 17 = aField w := Fin.ext (Nat.mod_mod _ 32)

/-- A word decodes to an instruction when it has its opcode and the opcode map gives that instruction for its fields
(R88). -/
theorem decode_eq_iff {w : InsnWord} {i : Instr} : decode w = i ↔
    bits w 31 27 = i.opcode.val ∧ instrOf i.opcode (dField w) (aField w) (bField w) (immField w) = i := by
  rw [← opField_val_eq_bits, ← Fin.ext_iff]
  constructor
  · intro h
    have hop : opField w = i.opcode := by rw [← h, decode_opcode]
    exact ⟨hop, hop ▸ h⟩
  · rintro ⟨hop, h⟩
    rw [decode, hop, h]

/-- The words of `sys` (R111). -/
theorem decode_eq_sys_iff {w : InsnWord} {d : Reg} {imm : Nat} :
    decode w = .sys d imm ↔ bits w 31 27 = 1 ∧ dField w = d ∧ bits w 21 0 = imm := by
  rw [← immField_eq_bits, ← Instr.sys.injEq]
  exact decode_eq_iff

/-- The words of `jnz` (R200). -/
theorem decode_eq_jnz_iff {w : InsnWord} {d a : Reg} :
    decode w = .jnz d a ↔ bits w 31 27 = 25 ∧ dField w = d ∧ aField w = a := by
  rw [← Instr.jnz.injEq]
  exact decode_eq_iff

theorem destReg_instrOf (op : Fin 32) (d a b : Reg) (imm : Nat) :
    destReg (instrOf op d a b imm) = if op.val ∈ [0, 1, 22, 25] ∨ 26 ≤ op.val then none else some d := by
  unfold instrOf
  split
  case h_33 n h => omega
  all_goals rfl

/-- `nop`, `sys`, `st`, `jnz` and the reserved opcodes have no destination; every other word's is its `d` (R201). -/
theorem destReg_decode_eq_some_iff {w : InsnWord} {d : Reg} : destReg (decode w) = some d ↔
    bits w 31 27 ∉ [0, 1, 22, 25] ∧ bits w 31 27 < 26 ∧ dField w = d := by
  rw [decode, destReg_instrOf, opField_val_eq_bits, Option.ite_none_left_eq_some, Option.some.injEq, not_or, Nat.not_le,
    and_assoc]

/-- The word at the program counter is the one the fetch gives (R54, R56). -/
theorem wordAt_iff_fetch {s : State} {w : InsnWord} : WordAt s w ↔ s.fetch = .ok w := by
  constructor
  · rintro ⟨hr, hb⟩
    exact State.fetch_eq hr hb
  · intro h
    refine ⟨?_, fun k hk => State.byteAt_of_fetch h hk⟩
    rcases s.fetch_cases with ⟨hr, -⟩ | ⟨-, he⟩
    · exact hr
    · rw [he] at h
      cases h

theorem reg_advance_eq_afterAdvance (s : State) (w : InsnWord) (r : Reg) :
    (s.advance w).reg r = afterAdvance s r := State.reg_advance ..

/-- The address after a word that lies inside memory does not wrap (R24, D5). -/
theorem WordAt.pc_add_toNat {s : State} {w : InsnWord} (h : WordAt s w) : (s.pc + 4).toNat = s.pc.toNat + 4 := by
  obtain ⟨hr, -⟩ := h
  have hsize := s.memSize.isLt
  rw [BitVec.toNat_add]
  exact Nat.mod_eq_of_lt (Nat.lt_of_le_of_lt hr hsize)

end Sys2Proof.Claims
end

section
/-! What a step on a known word does, and what each effect of an instruction leaves alone (R24, R91, R201, R226). -/

namespace Sys2Proof.Machine

open Sys2Proof.Claims

theorem State.advance_eq (s : State) (w : InsnWord) :
    s.advance w = { s with regs := s.regs.set 31 (s.pc + 4), fetched := some w } := by
  rw [State.advance, State.advance_pc_eq]
  rfl

/-- A step on the word at the program counter is the effect of what it decodes to, and the end of the step (R91). -/
theorem step_eq_of_wordAt {s : State} {w : InsnWord} (hrun : s.run = .running) (hw : WordAt s w) :
    step s = retire (exec (decode w) (s.advance w)) := by
  simp only [step, hrun, wordAt_iff_fetch.1 hw]

/-- The inversion of `step_eq_of_wordAt`: the step's effect is one of those of `exec_cases`. -/
theorem effect_of_step {s t : State} {w : InsnWord} (hw : WordAt s w) (h : step s = .next t) :
    ∃ u, Effect (decode w) (s.advance w) u ∧ t = u.endStep := by
  obtain ⟨u, hu, heff⟩ := exec_cases (decode w) (s.advance w)
  rw [step_eq_of_wordAt (running_of_step h) hw, hu] at h
  exact ⟨u, heff, (Host.Outcome.next.inj h).symm⟩

/-- A step that gives a next state is a failed fetch, or the effect of the fetched word and its end (R91). -/
theorem step_cases {s t : State} (h : step s = .next t) :
    (s.memSize.val < s.pc.toNat + 4 ∧ t = s.fetchFault (.memoryFault .fetch s.pc)) ∨
    ∃ w u, s.fetch = .ok w ∧ Effect (decode w) (s.advance w) u ∧ t = u.endStep := by
  rcases step_running (running_of_step h) with ⟨hr, hs⟩ | ⟨-, w, u, hw, -, heff, hs⟩
  · exact .inl ⟨hr, Host.Outcome.next.inj (h.symm.trans hs)⟩
  · exact .inr ⟨w, u, hw, heff, Host.Outcome.next.inj (h.symm.trans hs)⟩

theorem step_memSize {s t : State} (h : step s = .next t) : t.memSize = s.memSize := by
  rcases step_cases h with ⟨-, rfl⟩ | ⟨w, u, -, heff, rfl⟩
  · exact State.fetchFault_memSize ..
  · exact heff.frame.1

section Effects
variable {i : Instr} {s t : State}

/-- Only a hypercall and a fault change the run state (R29). -/
theorem Effect.run_cases (h : Effect i s t) :
    t.run = s.run ∨ (∃ d imm, i = .sys d imm ∧ t = s.hypercall ⟨BitVec.ofNat 64 imm, s.reg d⟩) ∨
      ∃ c, MayRaise i s c ∧ t = s.raise c := by
  cases h with
  | write | nop | notTaken | taken | store => exact .inl rfl
  | hypercall hi => exact .inr (.inl ⟨_, _, hi, rfl⟩)
  | raised c hc => exact .inr (.inr ⟨c, hc, rfl⟩)

/-- `sys` can only send its hypercall (R111). -/
theorem Effect.eq_hypercall {d : Reg} {imm : Nat} (h : Effect (.sys d imm) s t) :
    t = s.hypercall ⟨BitVec.ofNat 64 imm, s.reg d⟩ := by
  cases h with
  | write _ hd | nop hd | notTaken hd | taken hd | store hd => cases hd
  | hypercall hi => cases hi; rfl
  | raised c hc => exact hc.elim

/-- The program counter stands unless it is the destination, a `jnz` jumps, or a fault undoes the advance (R201). -/
theorem Effect.pc_eq (h : Effect i s t) (hdest : destReg i ≠ some pcReg)
    (hjnz : ∀ d a, i = .jnz d a → s.reg a = 0) (hfault : ∀ r, t.run ≠ .faulted r) : t.pc = s.pc := by
  cases h with
  | write v hd => exact (State.reg_setReg ..).trans (if_neg fun e => hdest (hd.trans (congrArg some e.symm)))
  | nop | notTaken | store | hypercall => rfl
  | taken hi hz => exact absurd (hjnz _ _ hi) hz
  | raised c => exact absurd (State.raise_run ..) (hfault _)

theorem Effect.memWf (h : Effect i s t) (hm : s.mem.wf) : t.mem.wf := by
  cases h with
  | store => exact Memory.wf_writeLE hm ..
  | write | nop | notTaken | taken | hypercall | raised => exact hm

/-- A store lists no address outside memory, since its bounds check passed (R55). -/
theorem Effect.memInside (h : Effect i s t) (hm : ∀ c ∈ s.mem, c.1 < s.memSize.val) :
    ∀ c ∈ t.mem, c.1 < t.memSize.val := by
  cases h with
  | store _ hr =>
    intro c hc
    rcases Memory.mem_writeLE hc with hold | ⟨-, hlt⟩
    · exact hm c hold
    · exact Nat.lt_of_lt_of_le hlt hr
  | write | nop | notTaken | taken | hypercall | raised => exact hm

end Effects

end Sys2Proof.Machine
end

section
/-! The invariant of a core between steps: each outcome of a step keeps it. -/

namespace Sys2Proof.Machine

section Raised
variable {i : Instr} {s : State} {c : FaultCause}

/-- An instruction raises only what its opcode can raise (R220, R222). -/
theorem MayRaise.opcode_mem (h : MayRaise i s c) : i.opcode ∈ c.opcodes := by
  cases i with
  | sdiv | smod => rcases h with ⟨-, rfl⟩ | ⟨-, -, rfl⟩ <;> simp [FaultCause.opcodes, Instr.opcode]
  | udiv | umod | ld | st =>
    obtain ⟨-, rfl⟩ := h
    simp [FaultCause.opcodes, Instr.opcode]
  | reserved26 | reserved27 | reserved28 | reserved29 | reserved30 | reserved31 =>
    obtain rfl := h
    decide
  | _ => exact h.elim

/-- A memory fault that an instruction raises names an access outside memory (R221). -/
theorem MayRaise.outOfRange (h : MayRaise i s c) : c.outOfRange s := by
  cases i with
  | sdiv | smod => rcases h with ⟨-, rfl⟩ | ⟨-, -, rfl⟩ <;> trivial
  | udiv | umod =>
    obtain ⟨-, rfl⟩ := h
    trivial
  | ld | st =>
    obtain ⟨hlt, rfl⟩ := h
    exact (s.not_inRange_iff ..).2 hlt
  | reserved26 | reserved27 | reserved28 | reserved29 | reserved30 | reserved31 =>
    obtain rfl := h
    trivial
  | _ => exact h.elim

end Raised

/-- The core aborts with the codes the table does not give (R230). -/
theorem State.hypercall_runLegal (s : State) {r : HcallReq} (h : r.code.toNat < 2 ^ 22) : (s.hypercall r).runLegal := by
  rw [State.runLegal, State.hypercall_run]
  rcases r.answer_cases with ⟨-, ha⟩ | ⟨-, ha⟩ | ⟨-, ha⟩ | ⟨h1, h2, h3, ha⟩ <;> rw [ha]
  case inr.inr.inr => exact ⟨h, h1, h2, h3⟩
  all_goals trivial

/-- The record of a fault after the fetch of `w` names the program counter and `w`, since the advance is undone (R226,
R227). -/
theorem State.raise_runLegal {s : State} {w : InsnWord} {c : FaultCause} (hw : s.fetch = .ok w)
    (h : MayRaise (decode w) (s.advance w) c) : ((s.advance w).raise c).runLegal := by
  have hpc : (s.advance w).pc - 4 = s.pc := by rw [State.pc_advance, BitVec.add_sub_cancel]
  refine ⟨(State.pc_raise ..).symm, h.outOfRange, ?_, ?_⟩
  · rw [hpc]
    exact hw
  · rw [← decode_opcode]
    exact h.opcode_mem

/-- The effect of the fetched word leaves a run state that fits the state (R29, R226, R230). -/
theorem Effect.runLegal {s u : State} {w : InsnWord} (hrun : s.run = .running) (hw : s.fetch = .ok w)
    (h : Effect (decode w) (s.advance w) u) : u.runLegal := by
  rcases h.run_cases with hu | ⟨d, imm, hi, rfl⟩ | ⟨c, hc, rfl⟩
  · rw [State.runLegal, hu, State.advance_run, hrun]
    trivial
  · have hwf : (Instr.sys d imm).wellFormed = true := hi ▸ decode_wellFormed w
    have himm : imm < 2 ^ 22 := of_decide_eq_true hwf
    refine State.hypercall_runLegal _ ?_
    rw [BitVec.toNat_ofNat]
    exact Nat.lt_of_le_of_lt (Nat.mod_le ..) himm
  · exact State.raise_runLegal hw hc

theorem State.Inv.fetchFault {s : State} (h : s.Inv) (hr : s.memSize.val < s.pc.toNat + 4) :
    (s.fetchFault (.memoryFault .fetch s.pc)).Inv where
  memWf := h.memWf
  memInside := h.memInside
  memSizePos := h.memSizePos
  betweenSteps := h.betweenSteps
  runLegal := ⟨(State.pc_fetchFault ..).symm, (s.not_inRange_iff ..).2 hr, rfl⟩

theorem State.Inv.endStep {s u : State} {w : InsnWord} (h : s.Inv) (hrun : s.run = .running) (hw : s.fetch = .ok w)
    (heff : Effect (decode w) (s.advance w) u) : u.endStep.Inv where
  memWf := heff.memWf h.memWf
  memInside := heff.memInside h.memInside
  memSizePos := by
    rw [State.endStep_memSize, heff.frame.1]
    exact h.memSizePos
  betweenSteps := rfl
  runLegal := Effect.runLegal (u := u) hrun hw heff

end Sys2Proof.Machine
end

section
/-! The run states a hypercall leads to, by its code (R230 to R232). -/

namespace Sys2Proof.Machine

section Codes
variable (r : HcallReq)

theorem HcallReq.runState_eq_halted_zero_iff : r.answer.runState = .halted 0 ↔ r.code = 1 := by
  rcases r.answer_cases with ⟨h, ha⟩ | ⟨h, ha⟩ | ⟨h, ha⟩ | ⟨h, -, -, ha⟩
  case inr.inr.inr => simpa [ha, HcallAnswer.runState] using h
  all_goals simp [ha, h, HcallAnswer.runState]

theorem HcallReq.runState_eq_halted_one_iff : r.answer.runState = .halted 1 ↔ r.code = 2 := by
  rcases r.answer_cases with ⟨h, ha⟩ | ⟨h, ha⟩ | ⟨h, ha⟩ | ⟨-, h, -, ha⟩
  case inr.inr.inr => simpa [ha, HcallAnswer.runState] using h
  all_goals simp [ha, h, HcallAnswer.runState]

theorem HcallReq.runState_eq_aborted_iff (c : Word) :
    r.answer.runState = .aborted c ↔ r.code = c ∧ c ≠ 1 ∧ c ≠ 2 ∧ c ≠ 3 := by
  rcases r.answer_cases with ⟨h, ha⟩ | ⟨h, ha⟩ | ⟨h, ha⟩ | ⟨h1, h2, h3, ha⟩ <;> rw [ha, HcallAnswer.runState]
  · exact ⟨nofun, fun ⟨hc, hne, _⟩ => absurd (hc.symm.trans h) hne⟩
  · exact ⟨nofun, fun ⟨hc, _, hne, _⟩ => absurd (hc.symm.trans h) hne⟩
  · exact ⟨nofun, fun ⟨hc, _, _, hne⟩ => absurd (hc.symm.trans h) hne⟩
  · rw [RunState.aborted.injEq]
    exact ⟨fun hc => ⟨hc, hc ▸ ⟨h1, h2, h3⟩⟩, fun ⟨hc, _⟩ => hc⟩

end Codes

/-- The request of `sys` extends its 22-bit code with zeros (R111). -/
theorem sysCode_eq_iff {imm : Nat} (h : imm < 2 ^ 22) (c : Word) : BitVec.ofNat 64 imm = c ↔ c.toNat = imm := by
  rw [← BitVec.toNat_inj, BitVec.toNat_ofNat, Nat.mod_eq_of_lt (by omega), eq_comm]

end Sys2Proof.Machine
end

section
/-! The statements on the state and the step. -/

open Sys2Proof.Claims

namespace Sys2Proof.Proofs

open Sys2Proof.Machine

/-- Settles O9: a failed fetch and each effect of the fetched word keep the invariant. -/
theorem stepKeepsTheInvariant : Obligations.StepKeepsTheInvariant := by
  intro s t hinv hstep
  rcases step_cases hstep with ⟨hr, rfl⟩ | ⟨w, u, hw, heff, rfl⟩
  · exact hinv.fetchFault hr
  · exact hinv.endStep (running_of_step hstep) hw heff

/-- Settles O12: no step leaves the state, so by induction a run stays in it. -/
theorem terminalStatesAreFinal : Obligations.TerminalStatesAreFinal := by
  intro s hrun
  refine ⟨step_not_running hrun, fun t ht => ht.induct (P := (· = s)) rfl ?_⟩
  rintro t u rfl hstep
  exact absurd (running_of_step hstep) hrun

/-- Settles O15: a `sys` enters the run state of the host's answer, and any other word leaves the core running or
faulted. -/
theorem runStateEnteredOnlyBySys : Obligations.RunStateEnteredOnlyBySys := by
  intro s t w hrun hw hstep
  obtain ⟨u, heff, rfl⟩ := effect_of_step hw hstep
  rw [State.endStep_run]
  by_cases hop : bits w 31 27 = 1
  · have himm : bits w 21 0 < 2 ^ 22 := immField_eq_bits w ▸ immField_lt w
    rw [decode_eq_sys_iff.2 ⟨hop, rfl, rfl⟩] at heff
    obtain rfl := heff.eq_hypercall
    simp only [State.hypercall_run, HcallReq.runState_eq_halted_zero_iff, HcallReq.runState_eq_halted_one_iff,
      HcallReq.runState_eq_aborted_iff, sysCode_eq_iff himm, hop, true_and, implies_true, and_true]
    exact ⟨eq_comm, eq_comm⟩
  · rcases heff.run_cases with hu | ⟨d, imm, hi, -⟩ | ⟨c, -, rfl⟩
    · simp [hu, hrun, hop]
    · exact absurd (decode_eq_sys_iff.1 hi).1 hop
    · simp [hop]

/-- Settles O18: by induction over the run, since no step changes the size. -/
theorem memorySizeNeverChanges : Obligations.MemorySizeNeverChanges := by
  intro s t ht
  exact ht.induct (P := (·.memSize = s.memSize)) rfl fun t u ih hstep => (step_memSize hstep).trans ih

/-- Settles O19: the frame of every effect, with the destination read from the word. -/
theorem onlyTheDestinationIsWritten : Obligations.OnlyTheDestinationIsWritten := by
  intro s t w r hw hstep hr hdest
  obtain ⟨u, heff, rfl⟩ := effect_of_step hw hstep
  obtain ⟨-, -, hframe⟩ := heff.frame
  have hd : destReg (decode w) ≠ some r := by
    intro e
    obtain ⟨hop, hlt, hr⟩ := destReg_decode_eq_some_iff.1 e
    rcases hdest with hne | hnone | hreserved
    · exact hne (hr.symm.trans (regAt_eq_dField w).symm)
    · exact hop hnone
    · exact Nat.not_le.2 hlt hreserved
  calc u.endStep.reg r = u.reg r := State.reg_endStep ..
    _ = (s.advance w).reg r := hframe r hr hd
    _ = s.reg r := (State.reg_advance ..).trans (if_neg hr)

/-- Settles O20: the advanced program counter stands, and it does not wrap, since the word lies inside memory. -/
theorem sequentialFlow : Obligations.SequentialFlow := by
  intro s t w _ hw hstep hfault hseq
  obtain ⟨u, heff, rfl⟩ := effect_of_step hw hstep
  have hdest : destReg (decode w) ≠ some pcReg := by
    intro e
    obtain ⟨hop, -, hd⟩ := destReg_decode_eq_some_iff.1 e
    rcases hseq with hnone | ⟨-, hne⟩ | ⟨hop25, -⟩
    · exact hop (List.mem_append_left [25] hnone)
    · exact hne ((dField_val_eq_bits w).symm.trans (congrArg Fin.val hd))
    · exact hop (by simp [hop25])
  have hjnz : ∀ d a, decode w = .jnz d a → (s.advance w).reg a = 0 := by
    intro d a hi
    obtain ⟨hop, -, rfl⟩ := decode_eq_jnz_iff.1 hi
    rw [reg_advance_eq_afterAdvance, ← regAt_eq_aField]
    rcases hseq with hnone | ⟨hne, -⟩ | ⟨-, hz⟩
    · simp [hop] at hnone
    · exact absurd hop hne
    · exact hz
  have hpc : u.pc = s.pc + 4 := (heff.pc_eq hdest hjnz hfault).trans (State.pc_advance ..)
  rw [State.pc_endStep, hpc, hw.pc_add_toNat]

/-- Settles O7: the word at the program counter is the one the step fetches. -/
theorem stepRunsTheDecodedInstruction : Obligations.StepRunsTheDecodedInstruction := by
  intro s w hrun hw
  rw [step_eq_of_wordAt hrun hw, State.advance_eq]
  cases exec (decode w) _ <;> rfl

end Sys2Proof.Proofs
end

section
/-! The fault the rules give to a word, and the faults its instruction can raise (R120 to R126, R180, R181, R220,
R228). -/

namespace Sys2Proof.Claims

open Sys2Proof.Machine

@[simp] theorem regAt_eq_bField (w : InsnWord) : regAt w 16 12 = bField w := Fin.ext (Nat.mod_mod _ 32)

/-- The words of `st` (R181). -/
theorem decode_eq_st_iff {w : InsnWord} {d a : Reg} :
    decode w = .st d a ↔ bits w 31 27 = 22 ∧ dField w = d ∧ aField w = a := by
  rw [← Instr.st.injEq]
  exact decode_eq_iff

/-- What the instruction of a word can raise after the advance is what the rules give to the word, opcode by opcode
(R228). -/
theorem mayRaise_decode_iff (s : State) (w : InsnWord) (c : FaultCause) :
    MayRaise (decode w) (s.advance w) c ↔ expectedFault s w = some c := by
  simp only [expectedFault, regAt_eq_dField, regAt_eq_aField, regAt_eq_bField, ← reg_advance_eq_afterAdvance s w,
    ← opField_val_eq_bits, ← State.advance_memSize s w, decode]
  generalize opField w = op, s.advance w = u
  unfold instrOf
  split
  case h_33 n h => omega
  case h_3 | h_4 =>
    by_cases hzero : u.reg (bField w) = 0#64 <;> simp [MayRaise, Alu.isDivOverflow_iff, hzero, eq_comm (a := c)]
  all_goals simp [MayRaise, Instr.opcode, eq_comm (a := c)]

end Sys2Proof.Claims

namespace Sys2Proof.Machine

/-- The code of a cause, by the opcode that raises it (R220). -/
theorem errorKind_code_of_mem_opcodes {op : Fin 32} {c : FaultCause} (h : op ∈ c.opcodes) :
    c.errorKind.code = if op.val = 21 ∨ op.val = 22 then 1 else if 26 ≤ op.val then 3 else 2 := by
  cases c with
  | memoryFault kind addr =>
    cases kind with
    | fetch => exact absurd h List.not_mem_nil
    | load | store =>
      obtain rfl := List.mem_singleton.1 h
      rfl
  | arithmeticFault reason =>
    cases reason with
    | divideByZero | overflow =>
      simp only [FaultCause.opcodes] at h
      fin_cases h <;> rfl
  | reservedOpcode r =>
    obtain ⟨hop, hge⟩ := List.mem_filter.1 h
    obtain rfl := List.mem_singleton.1 hop
    have hge : 26 ≤ op.val := of_decide_eq_true hge
    rw [if_neg (by omega), if_pos hge]
    rfl

/-- An instruction that can raise nothing leaves the core running or ended by a hypercall (R226, R230). -/
theorem Effect.not_faulted {i : Instr} {s t : State} (h : Effect i s t) (hrun : s.run = .running)
    (hno : ∀ c, ¬ MayRaise i s c) (r : FaultRecord) : t.run ≠ .faulted r := by
  rcases h.run_cases with hu | ⟨d, imm, -, rfl⟩ | ⟨c, hc, -⟩
  · simp [hu, hrun]
  · rw [State.hypercall_run]
    cases (HcallReq.answer _) <;> nofun
  · exact absurd hc (hno c)

/-- An instruction raises a cause it can raise, or can raise none: that is so of every other effect (R228). -/
theorem Effect.raises_or_cannot {i : Instr} {s t : State} (h : Effect i s t) :
    (∃ c, MayRaise i s c ∧ t = s.raise c) ∨ ∀ c, ¬ MayRaise i s c := by
  cases h with
  | raised c hc => exact .inl ⟨c, hc, rfl⟩
  | write v hd hno => exact .inr hno
  | nop hi | notTaken hi | taken hi | hypercall hi => exact .inr fun c hc => by rw [hi] at hc; exact hc
  | store hi hr => exact .inr fun c hc => by rw [hi] at hc; exact Nat.not_lt.2 hr hc.1

/-- A byte of memory changes only by a store over it (R64, R181). -/
theorem Effect.byteAt_cases {i : Instr} {s t : State} (h : Effect i s t) (y : Nat) : t.byteAt y = s.byteAt y ∨
    ∃ d a, i = .st d a ∧ (s.reg d).toNat + 8 ≤ s.memSize.val ∧ (s.reg d).toNat ≤ y ∧ y < (s.reg d).toNat + 8 := by
  cases h with
  | write | nop | notTaken | taken | hypercall | raised => exact .inl rfl
  | @store d a hi hr =>
    by_cases hy : y < (s.reg d).toNat ∨ (s.reg d).toNat + 8 ≤ y
    · exact .inl (State.stored_byteAt_ne _ _ _ hy)
    · exact .inr ⟨d, a, hi, hr, by omega, by omega⟩

end Sys2Proof.Machine
end

section
/-! The bytes of memory: canonical lists by what they read, a little-endian read in parts, and the bytes of a word. -/

namespace Sys2Proof.Machine

/-- A canonical memory lists exactly the bytes that do not read as unlisted (log 14). -/
theorem Memory.mem_iff_read {m : Memory} (h : m.wf) (x : Nat) (b : Byte) :
    (x, b) ∈ m ↔ m.read x = b ∧ b ≠ Config.unlistedByte := by
  induction m with
  | nil => exact ⟨nofun, fun ⟨hr, hb⟩ => absurd hr.symm hb⟩
  | cons c m ih =>
    obtain ⟨a, v⟩ := c
    rw [List.mem_cons, Prod.mk.injEq, ih (Memory.wf_tail h), Memory.read]
    by_cases hx : x = a
    · subst hx
      have hv : v ≠ Config.unlistedByte := h.2 (x, v) List.mem_cons_self
      have hm : Memory.read m x = Config.unlistedByte := Memory.read_of_lt (Memory.wf_head h)
      rw [if_pos rfl, hm]
      constructor
      · rintro (⟨-, rfl⟩ | ⟨rfl, hne⟩)
        · exact ⟨rfl, hv⟩
        · exact absurd rfl hne
      · exact fun ⟨hb, _⟩ => .inl ⟨rfl, hb.symm⟩
    · simp [hx]

/-- A little-endian read of `n + k` bytes is the read of the first `n` and, above it, that of the other `k` (R54). -/
theorem Memory.readLE_add (m : Memory) (x n k : Nat) :
    m.readLE x (n + k) = m.readLE x n + 256 ^ n * m.readLE (x + n) k := by
  induction n generalizing x with
  | zero => simp [Memory.readLE]
  | succ n ih =>
    rw [Nat.add_right_comm n 1 k, Memory.readLE, ih (x + 1), Memory.readLE, Nat.add_right_comm x 1 n,
      Nat.add_assoc x n 1]
    ring

/-- A little-endian read inside a little-endian write gives that part of the value (R54, R59). -/
theorem Memory.readLE_writeLE {m : Memory} (h : m.wf) (x v : Nat) {n j k : Nat} (hjk : j + k ≤ n) :
    (m.writeLE x n v).readLE (x + j) k = v / 256 ^ j % 256 ^ k :=
  Memory.readLE_eq fun i hi => by
    rw [Nat.add_assoc, Memory.read_writeLE h x n v (j + i) (by omega), Nat.pow_add, Nat.div_div_eq_div_mul]

theorem State.readLE_four (s : State) (x : Nat) : s.mem.readLE x 4 = (s.byteAt x).toNat +
    2 ^ 8 * (s.byteAt (x + 1)).toNat + 2 ^ 16 * (s.byteAt (x + 2)).toNat + 2 ^ 24 * (s.byteAt (x + 3)).toNat := by
  simp only [Memory.readLE, State.byteAt, Nat.add_assoc, Nat.reduceAdd]
  omega

/-- A fetch inside memory gives the number that its four bytes form (R54, R56). -/
theorem State.fetch_toNat {s : State} (h : s.pc.toNat + 4 ≤ s.memSize.val) :
    ∃ w, s.fetch = .ok w ∧ w.toNat = s.mem.readLE s.pc.toNat 4 := by
  rcases s.fetch_cases with ⟨-, hw⟩ | ⟨hlt, -⟩
  · exact hw
  · omega

/-- A fetch at the first or a later one of the eight stored bytes sees four bytes of the value (R59). -/
theorem State.fetch_stored {s u : State} {addr v : Word} (hm : s.mem.wf) (hr : addr.toNat + 8 ≤ s.memSize.val)
    (hmem : u.mem = (s.stored addr v).mem) (hsize : u.memSize = s.memSize) {j : Nat} (hj : j + 4 ≤ 8)
    (hpc : u.pc.toNat = addr.toNat + j) : ∃ w, u.fetch = .ok w ∧ w.toNat = v.toNat / 256 ^ j % 256 ^ 4 := by
  obtain ⟨w, hw, hn⟩ := State.fetch_toNat (s := u) (by rw [hpc, hsize]; omega)
  exact ⟨w, hw, by rw [hn, hpc, hmem, State.stored_mem, Memory.readLE_writeLE hm _ _ hj]⟩

/-- An eight-byte read one above a store sees its bytes 1 to 7 and, above them, the byte after them (R59). -/
theorem State.readLE_stored_succ {s : State} {addr : Word} (hm : s.mem.wf) (v : Word) :
    (s.stored addr v).mem.readLE (addr.toNat + 1) 8 =
      v.toNat / 2 ^ 8 + 2 ^ 56 * (s.byteAt (addr.toNat + 8)).toNat := by
  have hlow : (s.stored addr v).mem.readLE (addr.toNat + 1) 7 = v.toNat / 2 ^ 8 % 2 ^ 56 :=
    Memory.readLE_writeLE hm _ _ (by decide)
  have hhigh : (s.stored addr v).mem.readLE (addr.toNat + 1 + 7) 1 = (s.byteAt (addr.toNat + 8)).toNat := by
    rw [← State.stored_byteAt_ne s addr v (Or.inr (Nat.le_refl _))]
    rfl
  have hv := v.isLt
  rw [Memory.readLE_add _ _ 7 1, hlow, hhigh, Nat.mod_eq_of_lt (by omega)]
  rfl

end Sys2Proof.Machine

namespace Sys2Proof

theorem bytesOfWord_eq_map_range (w : InsnWord) :
    bytesOfWord w = (List.range 4).map fun k => BitVec.ofNat 8 (w.toNat / 256 ^ k) := by
  simp [bytesOfWord, List.range_succ]

end Sys2Proof
end

section
/-! The word placed where a core fetches (log 4). -/

namespace Sys2Proof.Machine

open Sys2Proof.Claims

theorem fetchBytes_eq_bytesOfWord (w : InsnWord) : fetchBytes 32 w.toNat = bytesOfWord w := by
  rw [fetchBytes, Nat.mod_eq_of_lt w.isLt, BitVec.ofNat_toNat, BitVec.setWidth_eq]

@[simp] theorem State.readyToFetch_run (s : State) : s.readyToFetch.run = .running := by
  unfold State.readyToFetch
  split_ifs <;> rfl

@[simp] theorem State.readyToFetch_mem (s : State) : s.readyToFetch.mem = s.mem := by
  unfold State.readyToFetch
  split_ifs <;> rfl

theorem State.pc_readyToFetch_add_four_le (s : State) :
    s.readyToFetch.pc.toNat + 4 ≤ s.readyToFetch.memSize.val := by
  unfold State.readyToFetch
  split_ifs with hr hs
  · exact (s.inRange_iff ..).1 hr
  · change (s.setPc 0).pc.toNat + 4 ≤ s.memSize.val
    rw [State.pc_setPc]
    exact hs
  · change (s.setPc 0).pc.toNat + 4 ≤ 4
    rw [State.pc_setPc]
    decide

/-- A state with four bytes at its program counter only gets the run state `running`. -/
theorem State.readyToFetch_of_le {s : State} (h : s.pc.toNat + 4 ≤ s.memSize.val) :
    s.readyToFetch = { s with run := .running } := if_pos ((s.inRange_iff ..).2 h)

theorem State.placeInsn_byteAt_ne (s : State) (w : InsnWord) {y : Nat}
    (hy : y < s.pc.toNat ∨ s.pc.toNat + 4 ≤ y) : (s.placeInsn 32 w.toNat).byteAt y = s.byteAt y := by
  rw [State.byteAt, State.placeInsn, fetchBytes_eq_bytesOfWord]
  exact Memory.read_place_ne _ _ _ hy

/-- The word just placed is the one at the program counter. -/
theorem wordAt_placeInsn {s : State} (hm : s.mem.wf) (hr : s.pc.toNat + 4 ≤ s.memSize.val) (w : InsnWord) :
    WordAt (s.placeInsn 32 w.toNat) w := by
  refine ⟨hr, fun k hk => ?_⟩
  have hb : (s.placeInsn 32 w.toNat).byteAt (s.pc.toNat + k) = BitVec.ofNat 8 (w.toNat / 256 ^ k) := by
    rw [State.byteAt, State.placeInsn, fetchBytes_eq_bytesOfWord, bytesOfWord_eq_map_range,
      Memory.read_place hm _ _ k (by simpa using hk), List.getElem_map, List.getElem_range]
  exact (congrArg BitVec.toNat hb).trans (BitVec.toNat_ofNat ..)

theorem wordAt_withFetchWord {s : State} (hm : s.mem.wf) (w : InsnWord) : WordAt (s.withFetchWord 32 w.toNat) w :=
  wordAt_placeInsn ((s.readyToFetch_mem).symm ▸ hm) s.pc_readyToFetch_add_four_le w

end Sys2Proof.Machine
end

section
/-! The statements on memory, the fetch and the bytes of a word. -/

open Sys2Proof.Claims

namespace Sys2Proof.Proofs

open Sys2Proof.Machine

/-- Settles O14: what the word can raise is what the rules give it; with a cause the effect is that raise, which undoes
the advance, and with none no effect faults. -/
theorem stepFaultsExactlyWhenTheRulesSay : Obligations.StepFaultsExactlyWhenTheRulesSay := by
  intro s w hrun hw
  obtain ⟨u, hu, heff⟩ := exec_cases (decode w) (s.advance w)
  refine ⟨u.endStep, by rw [step_eq_of_wordAt hrun hw, hu, retire], ?_⟩
  rw [State.endStep_run]
  rcases heff.raises_or_cannot with ⟨c, hc, rfl⟩ | hno
  · have hpc : (s.advance w).pc - 4 = s.pc := by rw [State.pc_advance, BitVec.add_sub_cancel]
    rw [(mayRaise_decode_iff s w c).1 hc, State.raise_run, hpc]
    exact ⟨rfl, congrArg some (errorKind_code_of_mem_opcodes (decode_opcode w ▸ hc.opcode_mem))⟩
  · have hnone : expectedFault s w = none :=
      Option.eq_none_iff_forall_ne_some.2 fun c hc => hno c ((mayRaise_decode_iff s w c).2 hc)
    rw [hnone]
    exact heff.not_faulted hrun hno

/-- Settles O16: a failed fetch writes nothing, and of the effects only a store changes a byte, one of its eight. -/
theorem memoryChangesOnlyByStore : Obligations.MemoryChangesOnlyByStore := by
  intro s t y hstep hy
  rcases step_cases hstep with ⟨-, rfl⟩ | ⟨w, u, hw, heff, rfl⟩
  · exact absurd rfl hy
  · rcases heff.byteAt_cases y with hsame | ⟨d, a, hi, hstore⟩
    · exact absurd hsame hy
    · obtain ⟨hop, rfl, -⟩ := decode_eq_st_iff.1 hi
      rw [reg_advance_eq_afterAdvance, ← regAt_eq_dField] at hstore
      exact ⟨w, wordAt_iff_fetch.2 hw, hop, hstore⟩

/-- Settles O23: what a canonical memory lists is determined by what it reads, and a strictly rising list by its
members. -/
theorem equalBytesAreEqualMemories : Obligations.EqualBytesAreEqualMemories := by
  intro m m' hm hm' hread
  refine hm.1.eq_of_mem_iff hm'.1 fun (x, b) => ?_
  rw [Memory.mem_iff_read hm, Memory.mem_iff_read hm', hread]

/-- Settles O24: the state with the word placed is running and has the word at its program counter. -/
theorem fetchWordRunsNext : Obligations.FetchWordRunsNext := by
  intro s w hm
  have hrun : (s.withFetchWord 32 w.toNat).run = .running := s.readyToFetch_run
  have hw := wordAt_withFetchWord hm w
  refine ⟨s.withFetchWord 32 w.toNat, hw, hrun, step_eq_of_wordAt hrun hw, fun hr => ?_⟩
  rw [State.withFetchWord, State.readyToFetch_of_le hr]
  exact ⟨fun _ => rfl, rfl, rfl, fun y hy => State.placeInsn_byteAt_ne { s with run := .running } w hy⟩

/-- Settles O8: the fetch reads four bytes inside memory, and outside it the step is the fetch fault. -/
theorem fetchChecksFourBytesAtThePc : Obligations.FetchChecksFourBytesAtThePc := by
  intro s
  refine ⟨fun hr => ?_, fun hr hrun => ?_⟩
  · rw [← State.readLE_four]
    exact State.fetch_toNat hr
  · rcases step_running hrun with ⟨-, hs⟩ | ⟨hle, -⟩
    · exact ⟨_, hs, rfl, State.reg_fetchFault s _, fun _ => rfl, rfl, rfl⟩
    · omega

/-- Settles O45: each access after the store reads a part of the eight bytes, the load one byte more above them. -/
theorem mixedWidthAccessesSeeTheBytes : Obligations.MixedWidthAccessesSeeTheBytes := by
  intro s d a hm hr
  rcases execSt_cases d a s with ⟨-, hst⟩ | ⟨hlt, -⟩
  case inr => omega
  have hV := (s.reg a).isLt
  refine ⟨_, hst, fun u hmem hsize => ⟨fun hpc => ?_, fun hpc => ?_, fun e c hc hr9 => ?_⟩⟩
  · obtain ⟨w, hw, hn⟩ := State.fetch_stored hm hr hmem hsize (j := 0) (by decide) (congrArg BitVec.toNat hpc)
    exact ⟨w, hw, hn.trans (congrArg (· % 2 ^ 32) (Nat.div_one _))⟩
  · obtain ⟨w, hw, hn⟩ := State.fetch_stored hm hr hmem hsize (j := 4) (by decide) hpc
    exact ⟨w, hw, hn.trans (Nat.mod_eq_of_lt (by omega))⟩
  · rcases execLd_cases e c u with ⟨-, v, hv, hld⟩ | ⟨hlt, -⟩
    · refine ⟨_, hld, ?_⟩
      simp only [State.reg_setReg, if_true, hv, hc, hmem, State.readLE_stored_succ hm]
    · rw [hsize, hc] at hlt
      exact absurd hr9 (Nat.not_le.2 hlt)

/-- Settles O6: the four bytes are those of the word in memory order, which form it again; a table word of 32 bits is
laid out as these bytes. -/
theorem bytesDecodeLittleEndian : Obligations.BytesDecodeLittleEndian := by
  refine ⟨fun w rest => ?_, fun bs hbs => ?_, fun w => ?_⟩
  · rw [← bytesOfWord_eq_map_range]
    exact decodeBytes_bytesOfWord w rest
  · match bs, hbs with
    | [], _ | [_], _ | [_, _], _ | [_, _, _], _ => rfl
  · have h := decodeBytes_bytesOfWord w []
    rw [List.append_nil] at h
    rw [decodeTableWord, if_pos (Nat.le_refl 32), Nat.mod_eq_of_lt w.isLt, BitVec.ofNat_toNat, BitVec.setWidth_eq, h]

/-- Settles O5: the words are closed, so the decoder is evaluated on each. -/
theorem wordsOfTheSpecDecode : Obligations.WordsOfTheSpecDecode := by
  unfold Obligations.WordsOfTheSpecDecode
  decide

end Sys2Proof.Proofs
end

section
/-! The round trips of the encoding, format by format: the fields a format reads and the low bits it ignores (R82, R84,
R85). -/

namespace Sys2Proof

/-- How many low bits of the word a format ignores (R82, R84). -/
def Format.ignoredBits : Format → Nat
  | .n => 27
  | .r3 => 12
  | .r2 => 17
  | .i => 0

/-- The word of the fields that a format reads (R85). -/
def encodeFields (f : Format) (op : Fin 32) (d a b : Reg) (imm : Nat) : InsnWord :=
  match f with
  | .n => encodeN op
  | .r3 => encodeR3 op d a b
  | .r2 => encodeR2 op d a
  | .i => encodeI op d imm

/-- The encoder, on an entry of the opcode map, encodes the fields of the opcode's format (R85, R88). -/
theorem encode_instrOf (op : Fin 32) (d a b : Reg) (imm : Nat) :
    encode (instrOf op d a b imm) = encodeFields (formatOf op) op d a b imm := by
  unfold instrOf
  split
  case h_33 n h => omega
  all_goals rfl

/-- Encoding a word's own fields keeps the word above the ignored bits and clears those (R85). -/
theorem encodeFields_toNat (f : Format) (w : InsnWord) :
    (encodeFields f (opField w) (dField w) (aField w) (bField w) (immField w)).toNat =
      w.toNat / 2 ^ f.ignoredBits * 2 ^ f.ignoredBits := by
  have hop := opField_val w
  have hd : (dField w).val = w.toNat / 2 ^ 22 % 32 := rfl
  have ha : (aField w).val = w.toNat / 2 ^ 17 % 32 := rfl
  have hb : (bField w).val = w.toNat / 2 ^ 12 % 32 := rfl
  cases f with
  | n => rw [encodeFields, encodeN_toNat, hop, Format.ignoredBits]
  | r3 => rw [encodeFields, encodeR3_toNat, hop, hd, ha, hb, Format.ignoredBits]; omega
  | r2 => rw [encodeFields, encodeR2_toNat, hop, hd, ha, Format.ignoredBits]; omega
  | i => rw [encodeFields, encodeI_toNat _ _ (immField_lt w), hop, hd, immField, Format.ignoredBits]; omega

theorem Format.readMask_eq_shiftLeft (f : Format) : f.readMask = BitVec.allOnes 32 <<< f.ignoredBits := by
  cases f <;> decide

/-- A format's mask clears its ignored low bits and keeps the others. -/
theorem and_readMask_toNat (w : InsnWord) (f : Format) :
    (w &&& f.readMask).toNat = w.toNat / 2 ^ f.ignoredBits * 2 ^ f.ignoredBits := by
  have hle := Nat.div_mul_le_self w.toNat (2 ^ f.ignoredBits)
  rw [f.readMask_eq_shiftLeft, ← BitVec.shiftLeft_ushiftRight, BitVec.toNat_shiftLeft, BitVec.toNat_ushiftRight,
    Nat.shiftLeft_eq, Nat.shiftRight_eq_div_pow]
  exact Nat.mod_eq_of_lt (Nat.lt_of_le_of_lt hle w.isLt)

/-- Words that agree on the bits of a mask are equal under it. -/
theorem and_eq_and_of_xor_and_eq_zero {w v m : InsnWord} (h : (w ^^^ v) &&& m = 0) : w &&& m = v &&& m := by
  refine BitVec.xor_eq_zero_iff.1 (Eq.trans ?_ h)
  ext i hi
  simp only [BitVec.getElem_xor, BitVec.getElem_and, Bool.and_xor_distrib_right]

/-- Every format reads the opcode (R82). -/
theorem opField_and_readMask (w : InsnWord) (f : Format) : opField (w &&& f.readMask) = opField w := by
  apply Fin.ext
  rw [opField_val, opField_val, and_readMask_toNat]
  cases f <;> simp only [Format.ignoredBits] <;> omega

/-- The word of a decoded word is the word under its format's mask (R82, R85). -/
theorem encode_decode (w : InsnWord) : encode (decode w) = w &&& (formatOf (opField w)).readMask := by
  apply BitVec.eq_of_toNat_eq
  rw [decode, encode_instrOf, encodeFields_toNat, and_readMask_toNat]

/-- Decoding the encoding of a well-formed instruction gives it back, by the round trip of its format (R85). -/
theorem decode_encode {i : Instr} (h : i.wellFormed = true) : decode (encode i) = i := by
  cases i with
  | nop | reserved26 | reserved27 | reserved28 | reserved29 | reserved30 | reserved31 => exact decode_encodeN _
  | sys d imm | ldi d imm => exact decode_encodeI _ d (of_decide_eq_true h)
  | ftoi d a | itof d a | not d a | ld d a | st d a | mov d a | jnz d a => exact decode_encodeR2 _ d a
  | sdiv d a b | smod d a b | add d a b | sub d a b | mul d a b | udiv d a b | umod d a b
  | fadd d a b | fsub d a b | fmul d a b | fdiv d a b
  | and d a b | or d a b | xor d a b | shl d a b | shr d a b => exact decode_encodeR3 _ d a b

namespace Claims

/-- The mask of the statements is that of the model's format (R82, R84). -/
theorem readMask_eq (w : InsnWord) : readMask w = (formatOf (opField w)).readMask := by
  rw [readMask, ← opField_val_eq_bits]
  generalize opField w = op
  revert op
  decide

theorem encode_decode_eq_and_readMask (w : InsnWord) : encode (decode w) = w &&& readMask w := by
  rw [encode_decode, readMask_eq]

/-- `ldi` and `sys` read every bit (R82). -/
theorem encode_decode_of_opsI {w : InsnWord} (h : bits w 31 27 ∈ opsI) : encode (decode w) = w := by
  have hdisjoint : ∀ op ∈ opsI, op ∉ opsN := by decide
  rw [encode_decode_eq_and_readMask, readMask, if_neg (hdisjoint _ h), if_pos h]
  exact BitVec.and_allOnes

end Claims

end Sys2Proof
end

section
/-! The lines emitted earlier and the word held before a step: a step carries the lines along and reads neither (R93). -/

namespace Sys2Proof.Machine

open Sys2Proof.Claims

/-- The state with the lines `l` emitted before its own. -/
def State.afterLines (s : State) (l : List (List Char)) : State := { s with diag := l ++ s.diag }

/-- The state with `f` as the word held for the step in progress (R30). -/
def State.holding (s : State) (f : Option InsnWord) : State := { s with fetched := f }

section AfterLines
variable {s t : State} (l : List (List Char))

theorem formR3Fault_afterLines {f : Word → Word → Except ArithReason Word} {d a b : Reg}
    (h : formR3Fault f d a b s = .next t) : formR3Fault f d a b (s.afterLines l) = .next (t.afterLines l) := by
  rcases formR3Fault_cases f d a b s with ⟨v, hv, e⟩ | ⟨r, hr, e⟩
  · obtain rfl := Host.Outcome.next.inj (e.symm.trans h)
    exact formR3Fault_ok hv
  · obtain rfl := Host.Outcome.next.inj (e.symm.trans h)
    exact formR3Fault_error hr

theorem execLd_afterLines {d a : Reg} (h : execLd d a s = .next t) :
    execLd d a (s.afterLines l) = .next (t.afterLines l) := by
  have hload : (s.afterLines l).busLoad ((s.afterLines l).reg a) = s.busLoad (s.reg a) := rfl
  unfold execLd at h ⊢
  rw [hload]
  cases hv : s.busLoad (s.reg a) <;> rw [hv] at h <;> obtain rfl := Host.Outcome.next.inj h <;> rfl

theorem execSt_afterLines {d a : Reg} (h : execSt d a s = .next t) :
    execSt d a (s.afterLines l) = .next (t.afterLines l) := by
  rcases execSt_cases d a s with ⟨hr, e⟩ | ⟨hr, e⟩ <;> obtain rfl := Host.Outcome.next.inj (e.symm.trans h) <;>
    rcases execSt_cases d a (s.afterLines l) with ⟨hr', e'⟩ | ⟨hr', e'⟩
  · exact e'
  · exact absurd hr (Nat.not_le.2 hr')
  · exact absurd hr' (Nat.not_le.2 hr)
  · exact e'

theorem execJnz_afterLines {d a : Reg} (h : execJnz d a s = .next t) :
    execJnz d a (s.afterLines l) = .next (t.afterLines l) := by
  rcases execJnz_cases d a s with ⟨hz, e⟩ | ⟨hz, e⟩ <;> obtain rfl := Host.Outcome.next.inj (e.symm.trans h) <;>
    rcases execJnz_cases d a (s.afterLines l) with ⟨hz', e'⟩ | ⟨hz', e'⟩
  · exact e'
  · exact absurd hz' hz
  · exact absurd hz hz'
  · exact e'

/-- An instruction's effect does not depend on the lines emitted earlier, and keeps them (R93, R234). -/
theorem exec_afterLines {i : Instr} (h : exec i s = .next t) : exec i (s.afterLines l) = .next (t.afterLines l) := by
  cases i with
  | sys d imm =>
    obtain rfl := Host.Outcome.next.inj h
    simp only [exec, execSys, State.hypercall, State.afterLines, List.append_assoc]
    rfl
  | sdiv d a b | smod d a b | udiv d a b | umod d a b => exact formR3Fault_afterLines l h
  | ld d a => exact execLd_afterLines l h
  | st d a => exact execSt_afterLines l h
  | jnz d a => exact execJnz_afterLines l h
  | nop | add | sub | mul | fadd | fsub | fmul | fdiv | ftoi | itof | and | or | xor | not | shl | shr | ldi | mov
  | reserved26 | reserved27 | reserved28 | reserved29 | reserved30 | reserved31 =>
    obtain rfl := Host.Outcome.next.inj h
    rfl

end AfterLines

/-- One state `t` gives the step for every held word and all earlier lines, up to the word held after it: the advance
overwrites the held word, and a failed fetch records none (R91, R93, R227). -/
theorem step_afterLines {s : State} (hrun : s.run = .running) : ∃ t : State, ∀ l f, ∃ g,
    step ((s.afterLines l).holding f) = .next ((t.afterLines l).holding g) := by
  rcases step_running hrun with ⟨hr, -⟩ | ⟨-, w, u, hw, hu, -⟩
  · refine ⟨s.fetchFault (.memoryFault .fetch s.pc), fun l f => ⟨f, ?_⟩⟩
    rcases step_running (s := (s.afterLines l).holding f) hrun with ⟨-, hs⟩ | ⟨hle, -⟩
    · exact hs
    · exact absurd hr (Nat.not_lt.2 hle)
  · refine ⟨u, fun l f => ⟨none, ?_⟩⟩
    have hw' : WordAt ((s.afterLines l).holding f) w := wordAt_iff_fetch.2 hw
    have hadvance : ((s.afterLines l).holding f).advance w = (s.advance w).afterLines l := rfl
    rw [step_eq_of_wordAt (s := (s.afterLines l).holding f) hrun hw', hadvance, exec_afterLines l hu]
    rfl

/-- A state with the registers, memory, size and run state of another differs from it in the lines and the held word
alone. -/
theorem State.eq_afterLines {s u : State} (hregs : u.regs = s.regs) (hmem : u.mem = s.mem)
    (hsize : u.memSize = s.memSize) (hrun : u.run = s.run) :
    u = (State.afterLines { s with diag := [] } u.diag).holding u.fetched := by
  rw [State.holding, State.afterLines, List.append_nil, ← hregs, ← hmem, ← hsize, ← hrun]

end Sys2Proof.Machine
end

section
/-! Outcomes as the statements read them: a fault inside an instruction, and the diagnostic line (R226, R233). -/

namespace Sys2Proof.Claims

open Sys2Proof.Machine

theorem raises_raise (s : State) (c : FaultCause) : Raises c s (s.raise c) :=
  ⟨rfl, State.pc_raise s c, fun r hr => (State.reg_raise s c r).trans (if_neg hr), fun _ => rfl, rfl, rfl, rfl⟩

theorem isDigit_digitChar (n : Nat) : IsDigit (digitChar n) (n % 10) :=
  ⟨Nat.mod_lt n (by decide), digitChar_toNat n⟩

theorem isDecimal_decimalDigits {fuel n : Nat} (hf : 0 < fuel) (h : n < 10 ^ fuel) :
    IsDecimal n (decimalDigits fuel n) := by
  refine ⟨decimalDigits_ne_nil hf n, fun c hc => ?_, decimalDigits_head h, decimalDigits_value h⟩
  obtain ⟨k, rfl⟩ := decimalDigits_digit hc
  exact ⟨k % 10, isDigit_digitChar k⟩

/-- The line the host emits for a value is its diagnostic line (R233). -/
theorem isDiagLine_diagLine (v : Word) : IsDiagLine v (diagLine v) := by
  refine ⟨decimalDigits 20 v.toInt.natAbs, isDecimal_decimalDigits (by decide) (natAbs_toInt_lt v), ?_⟩
  unfold diagLine signedDecimal
  split <;> rfl

end Sys2Proof.Claims
end

section
/-! The statements on the encoding. -/

open Sys2Proof.Claims

namespace Sys2Proof.Proofs

open Sys2Proof.Machine

/-- Settles O1: each format's encoding puts every field back where the decoder reads it. -/
theorem decodeOfEncodeIsIdentity : Obligations.DecodeOfEncodeIsIdentity :=
  fun _ => decode_encode

/-- Settles O2: the fields a format reads are the word above the bits it ignores. -/
theorem encodeOfDecodeKeepsReadBits : Obligations.EncodeOfDecodeKeepsReadBits :=
  encode_decode_eq_and_readMask

/-- Settles O3: words that agree under the mask have one opcode, so one format and one encoding of what they decode to;
and a word of opcode 1 or 23 is the encoding of what it decodes to. -/
theorem ignoredBitsDoNotMatter : Obligations.IgnoredBitsDoNotMatter := by
  refine ⟨fun w v hagree => ?_, fun w v hop hdec => ?_⟩
  · have hand := and_eq_and_of_xor_and_eq_zero hagree
    have hopcode : opField w = opField v := by
      rw [readMask_eq] at hand
      rw [← opField_and_readMask w, hand, opField_and_readMask]
    have hmask : readMask w = readMask v := by rw [readMask_eq, readMask_eq, hopcode]
    calc decode w = decode (encode (decode w)) := (decode_encode (decode_wellFormed w)).symm
      _ = decode (encode (decode v)) := by
        rw [encode_decode_eq_and_readMask, encode_decode_eq_and_readMask, hand, hmask]
      _ = decode v := decode_encode (decode_wellFormed v)
  · have hopcode : opField w = opField v := by rw [← decode_opcode, hdec, decode_opcode]
    have hop' : bits v 31 27 ∈ opsI := by
      rw [← opField_val_eq_bits, ← hopcode]
      exact hop
    rw [← encode_decode_of_opsI hop, hdec, encode_decode_of_opsI hop']

/-- Settles O4: the decoder's immediate field is 22 bits wide, and the opcode map is onto its own opcodes. -/
theorem decoderIsTotalOnTheOpcodeMap : Obligations.DecoderIsTotalOnTheOpcodeMap :=
  fun w => ⟨decode_wellFormed w, congrArg Fin.val (decode_opcode w)⟩

/-- Settles O22: canonical memories of equal bytes are equal, so the states differ in earlier lines and the held word,
which the step carries along or overwrites. -/
theorem stepReadsOnlyRegistersMemoryAndSize : Obligations.StepReadsOnlyRegistersMemoryAndSize := by
  intro s s' hrun hrun' hm hm' hreg hbytes hsize
  have hmem : s'.mem = s.mem := equalBytesAreEqualMemories _ _ hm' hm hbytes
  obtain ⟨t, ht⟩ := step_afterLines (s := { s with diag := [] }) hrun
  obtain ⟨g, hs⟩ := ht s.diag s.fetched
  obtain ⟨g', hs'⟩ := ht s'.diag s'.fetched
  rw [← State.eq_afterLines rfl rfl rfl rfl] at hs
  rw [← State.eq_afterLines (State.regs_ext hreg) hmem hsize (hrun'.trans hrun.symm)] at hs'
  exact ⟨_, _, t.diag, hs, hs', fun _ => rfl, fun _ => rfl, rfl, rfl, rfl, rfl⟩

/-- Settles O28: each reserved entry of the opcode map reads no field, and its effect is the raise. -/
theorem reservedOpcodesFault : Obligations.ReservedOpcodesFault := by
  intro p hp
  fin_cases hp
  all_goals exact ⟨fun w hop => decode_eq_iff.2 ⟨hop, rfl⟩, fun s => ⟨_, rfl, raises_raise s _⟩⟩

/-- Settles O48: `j`, `jmp` and `rdpc` write one register, and `halt`, `fail` and `debug` take the host's answer to
their code. -/
theorem pseudoInstructionEffects : Obligations.PseudoInstructionEffects := by
  intro s r imm himm
  refine ⟨rfl, rfl, rfl, rfl, rfl, rfl, ?j, ?jmp, ?rdpc, ?halt, ?fail, ?debug⟩
  case j => exact completes_setReg rfl fun t ht => ht
  case jmp => exact completes_setReg rfl fun t ht => (sysCode_eq_iff himm t.pc).1 ht.symm
  case rdpc => exact completes_setReg rfl fun t ht => ht
  case halt => exact ⟨_, rfl, rfl, rfl⟩
  case fail => exact ⟨_, rfl, rfl, rfl⟩
  case debug => exact ⟨_, rfl, rfl, rfl, diagLine (s.reg r), isDiagLine_diagLine _, rfl⟩

end Sys2Proof.Proofs
end

section
/-! The codes of `sys`: codes that differ are sent as different words, and a code other than 3 emits nothing (R111,
R230). -/

namespace Sys2Proof.Machine

/-- The zero extension of a 22-bit code keeps it apart from every other code (R111). -/
theorem sysCode_ne {imm : Nat} (h : imm < 2 ^ 22) {c : Word} (hne : imm ≠ c.toNat) : BitVec.ofNat 64 imm ≠ c :=
  fun e => hne ((sysCode_eq_iff h c).1 e).symm

/-- A request of any code but 3 emits nothing (R230, R234). -/
theorem State.hypercall_diag_of_ne (s : State) {r : HcallReq} (h : r.code ≠ 3) : (s.hypercall r).diag = s.diag := by
  rcases r.lines_cases with ⟨h3, -⟩ | ⟨-, hnil⟩
  · exact absurd h3 h
  · rw [State.hypercall_diag, hnil, List.append_nil]

end Sys2Proof.Machine
end

section
/-! The statements on `nop` and `sys`. -/

open Sys2Proof.Claims

namespace Sys2Proof.Proofs

open Sys2Proof.Machine

/-- Settles O26: the effect is the hypercall, so the code alone decides the run state and the lines, and the frame is
the hypercall's. -/
theorem sysOutcomes : Obligations.SysOutcomes := by
  refine ⟨fun w d hop hd => decode_eq_sys_iff.2 ⟨hop, Fin.ext hd.symm, rfl⟩, fun s d imm himm =>
    ⟨s.hypercall ⟨BitVec.ofNat 64 imm, s.reg d⟩, rfl, s.reg_hypercall _, s.hypercall_byteAt _, s.hypercall_memSize _,
      s.hypercall_fetched _, ?halt, ?fail, ?debug, ?abort⟩⟩
  case halt =>
    rintro rfl
    exact ⟨rfl, s.hypercall_diag_of_ne (sysCode_ne himm (by decide))⟩
  case fail =>
    rintro rfl
    exact ⟨rfl, s.hypercall_diag_of_ne (sysCode_ne himm (by decide))⟩
  case debug =>
    rintro rfl
    exact ⟨rfl, diagLine (s.reg d), isDiagLine_diagLine _, rfl⟩
  case abort =>
    intro h1 h2 h3
    have hne3 := sysCode_ne (c := 3) himm h3
    exact ⟨(HcallReq.runState_eq_aborted_iff _ _).2 ⟨rfl, sysCode_ne himm h1, sysCode_ne himm h2, hne3⟩,
      s.hypercall_diag_of_ne hne3⟩

/-- Settles O25: the entry of opcode 0 in the opcode map reads no field, and `nop` answers the state it is given. -/
theorem nopDoesNothing : Obligations.NopDoesNothing :=
  ⟨fun _ hop => decode_eq_iff.2 ⟨hop, rfl⟩, fun _ => rfl⟩

end Sys2Proof.Proofs
end

section
/-! Integer arithmetic as numbers: wrap-around on both readings, when a division completes and when it raises, and the
law of truncated division (R120 to R128). -/

namespace Sys2Proof.Machine.Alu

section Wrap
variable (p q : Word)

theorem add_wraps : (add p q).toNat = (p.toNat + q.toNat) % 2 ^ 64 ∧
    (add p q).toInt = (p.toInt + q.toInt).bmod (2 ^ 64) := by
  rw [add_eq]
  exact ⟨BitVec.toNat_add p q, BitVec.toInt_add p q⟩

theorem sub_wraps : ((sub p q).toNat : Int) = ((p.toNat : Int) - q.toNat) % 2 ^ 64 ∧
    (sub p q).toInt = (p.toInt - q.toInt).bmod (2 ^ 64) := by
  constructor
  · rw [sub, BitVec.toNat_ofInt]
    exact Int.toNat_of_nonneg (Int.emod_nonneg _ (by decide))
  · rw [sub_eq]
    exact BitVec.toInt_sub

theorem mul_wraps : (mul p q).toNat = p.toNat * q.toNat % 2 ^ 64 ∧
    (mul p q).toInt = (p.toInt * q.toInt).bmod (2 ^ 64) := by
  rw [mul_eq]
  exact ⟨BitVec.toNat_mul p q, BitVec.toInt_mul p q⟩

end Wrap

section Unsigned
variable {p q : Word}

theorem udiv_eq_divideByZero (h : q = 0) : udiv p q = .error .divideByZero :=
  ((udiv_cases p q).resolve_right fun ⟨hne, _⟩ => hne h).2

theorem umod_eq_divideByZero (h : q = 0) : umod p q = .error .divideByZero :=
  ((umod_cases p q).resolve_right fun ⟨hne, _⟩ => hne h).2

theorem udiv_eq_ok (h : q ≠ 0) : ∃ v, udiv p q = .ok v ∧ v.toNat = p.toNat / q.toNat :=
  ((udiv_cases p q).resolve_left fun ⟨h0, _⟩ => h h0).2

/-- The remainder is less than the divisor, and completes the quotient's multiple of it to the dividend (R126). -/
theorem umod_eq_ok (h : q ≠ 0) : ∃ v, umod p q = .ok v ∧ v.toNat < q.toNat ∧
    q.toNat * (p.toNat / q.toNat) + v.toNat = p.toNat := by
  obtain ⟨v, hv, hmod⟩ := ((umod_cases p q).resolve_left fun ⟨h0, _⟩ => h h0).2
  refine ⟨v, hv, ?_⟩
  rw [hmod]
  exact ⟨Nat.mod_lt _ (Nat.pos_of_ne_zero (toNat_ne_zero h)), Nat.div_add_mod ..⟩

end Unsigned

section Signed
variable {p q : Word}

/-- The overflow case as numbers and as patterns (R120, R128). -/
theorem toInt_overflow_iff :
    p.toInt = -2 ^ 63 ∧ q.toInt = -1 ↔ p = 0x8000000000000000 ∧ q = 0xFFFFFFFFFFFFFFFF :=
  decide_eq_true_iff.symm.trans (isDivOverflow_iff p q)

theorem sdiv_eq_divideByZero (h : q = 0) : sdiv p q = .error .divideByZero := by
  rw [sdiv, zero_divisor h]
  rfl

theorem smod_eq_divideByZero (h : q = 0) : smod p q = .error .divideByZero := by
  rw [smod, zero_divisor h]
  rfl

theorem sdiv_eq_overflow (hp : p = 0x8000000000000000) (hq : q = 0xFFFFFFFFFFFFFFFF) :
    sdiv p q = .error .overflow := by
  rw [hp, hq]
  rfl

theorem smod_eq_overflow (hp : p = 0x8000000000000000) (hq : q = 0xFFFFFFFFFFFFFFFF) :
    smod p q = .error .overflow := by
  rw [hp, hq]
  rfl

section Completes
variable (h0 : q ≠ 0) (ho : ¬ (p = 0x8000000000000000 ∧ q = 0xFFFFFFFFFFFFFFFF))
include h0 ho

theorem sdiv_eq_ok : ∃ v, sdiv p q = .ok v ∧ v.toInt = p.toInt.tdiv q.toInt := by
  rcases sdiv_cases p q with ⟨hz, -⟩ | ⟨-, hover, -⟩ | ⟨-, -, hok⟩
  · exact absurd hz h0
  · exact absurd ((isDivOverflow_iff p q).1 hover) ho
  · exact hok

theorem smod_eq_ok : ∃ v, smod p q = .ok v ∧ v.toInt = p.toInt - q.toInt * p.toInt.tdiv q.toInt := by
  rcases smod_cases p q with ⟨hz, -⟩ | ⟨-, hover, -⟩ | ⟨-, -, hok⟩
  · exact absurd hz h0
  · exact absurd ((isDivOverflow_iff p q).1 hover) ho
  · exact hok

end Completes

theorem toInt_ne_zero (h : q ≠ 0) : q.toInt ≠ 0 := fun h0 => h (BitVec.eq_of_toInt_eq h0)

end Signed

/-! ### Truncated division of integers -/

/-- The remainder of a truncated division is smaller than the divisor (R128). -/
theorem abs_tmod_lt (n : Int) {m : Int} (hm : m ≠ 0) : |n.tmod m| < |m| := by
  rw [Int.abs_eq_natAbs, Int.abs_eq_natAbs, Int.natAbs_tmod, Int.ofNat_lt]
  exact Nat.mod_lt _ (Int.natAbs_pos.2 hm)

/-- The remainder of a truncated division is zero or has the dividend's sign (R128). -/
theorem tmod_mul_self_nonneg (n m : Int) : 0 ≤ n.tmod m * n := by
  rcases Int.le_total 0 n with hn | hn
  · exact Int.mul_nonneg (Int.tmod_nonneg m hn) hn
  · have hneg : 0 ≤ (-n).tmod m := Int.tmod_nonneg m (Int.neg_nonneg_of_nonpos hn)
    rw [Int.neg_tmod] at hneg
    exact Int.mul_nonneg_of_nonpos_of_nonpos (Int.nonpos_of_neg_nonneg hneg) hn

/-- The quotient of a truncated division is rounded toward zero (R128). -/
theorem abs_mul_tdiv_le (n m : Int) : |m * n.tdiv m| ≤ |n| := by
  rw [Int.abs_eq_natAbs, Int.abs_eq_natAbs, Int.natAbs_mul, Int.natAbs_tdiv, Int.ofNat_le]
  exact Nat.mul_div_le ..

end Sys2Proof.Machine.Alu

namespace Sys2Proof.Claims

open Sys2Proof.Machine

section R3Fault
variable {i : Instr} {s : State} {d a b : Reg} {f : Word → Word → Except ArithReason Word}
  (hi : exec i s = formR3Fault f d a b s)
include hi

/-- An R3 instruction whose operation gives a value completes, changes only `x[d]`, and leaves the value there. -/
theorem completes_of_ok {v : Word} {P : State → Prop} (hv : f (s.reg a) (s.reg b) = .ok v)
    (hP : ∀ t, t.reg d = v → P t) : Completes i s fun t => OnlyReg d s t ∧ P t :=
  completes_setReg (hi.trans (formR3Fault_ok hv)) hP

/-- An R3 instruction whose operation gives a reason raises ArithmeticFault (R222). -/
theorem completes_raises {r : ArithReason} (hr : f (s.reg a) (s.reg b) = .error r) :
    Completes i s (Raises (.arithmeticFault r) s) :=
  ⟨_, hi.trans (formR3Fault_error hr), raises_raise s _⟩

end R3Fault

end Sys2Proof.Claims
end

section
/-! The statements on integer arithmetic. -/

open Sys2Proof.Claims

namespace Sys2Proof.Proofs

open Sys2Proof.Machine

/-- Settles O29: each completes with its operation's value, which wraps on both readings. -/
theorem addSubMulWrapModulo : Obligations.AddSubMulWrapModulo := by
  refine ⟨encodesR3_of_instrOf 4 fun _ _ _ _ => rfl, encodesR3_of_instrOf 5 fun _ _ _ _ => rfl,
    encodesR3_of_instrOf 6 fun _ _ _ _ => rfl, fun s d a b => ⟨?add, ?sub, ?mul⟩⟩
  case add => exact completes_setReg rfl fun _ ht => ht ▸ Alu.add_wraps ..
  case sub => exact completes_setReg rfl fun _ ht => ht ▸ Alu.sub_wraps ..
  case mul => exact completes_setReg rfl fun _ ht => ht ▸ Alu.mul_wraps ..

/-- Settles O30: a nonzero divisor gives the quotient and the remainder, and zero the fault. -/
theorem unsignedDivision : Obligations.UnsignedDivision := by
  refine ⟨encodesR3_of_instrOf 7 fun _ _ _ _ => rfl, encodesR3_of_instrOf 8 fun _ _ _ _ => rfl,
    fun s d a b => ⟨fun hne => ?completes, fun h0 => ?divideByZero⟩⟩
  case completes =>
    obtain ⟨q, hq, hquot⟩ := Alu.udiv_eq_ok (p := s.reg a) hne
    obtain ⟨r, hr, hrem⟩ := Alu.umod_eq_ok (p := s.reg a) hne
    exact ⟨completes_of_ok rfl hq fun _ ht => ht ▸ hquot, completes_of_ok rfl hr fun _ ht => ht ▸ hrem⟩
  case divideByZero =>
    exact ⟨completes_raises rfl (Alu.udiv_eq_divideByZero h0), completes_raises rfl (Alu.umod_eq_divideByZero h0)⟩

/-- Settles O31: outside its two faults the truncated quotient fits in 64 signed bits, and so does its remainder. -/
theorem signedDivision : Obligations.SignedDivision := by
  refine ⟨encodesR3_of_instrOf 2 fun _ _ _ _ => rfl, encodesR3_of_instrOf 3 fun _ _ _ _ => rfl,
    fun s d a b => ⟨fun hne hno => ?completes, fun h0 => ?divideByZero, fun hn hm => ?overflow⟩⟩
  case completes =>
    obtain ⟨q, hq, hquot⟩ := Alu.sdiv_eq_ok hne hno
    obtain ⟨r, hr, hrem⟩ := Alu.smod_eq_ok hne hno
    exact ⟨completes_of_ok rfl hq fun _ ht => ht ▸ hquot, completes_of_ok rfl hr fun _ ht => ht ▸ hrem⟩
  case divideByZero =>
    exact ⟨completes_raises rfl (Alu.sdiv_eq_divideByZero h0), completes_raises rfl (Alu.smod_eq_divideByZero h0)⟩
  case overflow =>
    exact ⟨completes_raises rfl (Alu.sdiv_eq_overflow hn hm), completes_raises rfl (Alu.smod_eq_overflow hn hm)⟩

/-- Settles O32: `sdiv` and `smod` give the quotient and the remainder of one truncated division (O31), whose law is
that of the integers. -/
theorem signedQuotientAndRemainderLaw : Obligations.SignedQuotientAndRemainderLaw := by
  intro s d a b
  obtain ⟨-, -, hdivision⟩ := signedDivision
  obtain ⟨hcompletes, -, hoverflow⟩ := hdivision s d a b
  refine ⟨fun hne hno => ?law, fun hn hm => ?overflow⟩
  case law =>
    obtain ⟨⟨t, ht, ⟨-, -, -, htrun, -⟩, hquot⟩, ⟨u, hu, ⟨-, -, -, hurun, -⟩, hrem⟩⟩ :=
      hcompletes hne (mt Alu.toInt_overflow_iff.2 hno)
    rw [← Int.tmod_def] at hrem
    refine ⟨t, u, ht, hu, htrun, hurun, ?_⟩
    rw [hquot, hrem]
    exact ⟨(Int.mul_tdiv_add_tmod ..).symm, Alu.abs_tmod_lt _ (Alu.toInt_ne_zero hne), Alu.tmod_mul_self_nonneg ..,
      Alu.abs_mul_tdiv_le ..⟩
  case overflow =>
    obtain ⟨hn', hm'⟩ := Alu.toInt_overflow_iff.1 ⟨hn, hm⟩
    exact hoverflow hn' hm'

end Sys2Proof.Proofs
end

section
/-! Words and outcomes as the statements read them: the fields of an R2 word, and a write of one register without its
frame. -/

namespace Sys2Proof.Claims

open Sys2Proof.Machine

/-- Every word of an R2 opcode decodes to that opcode's entry in the opcode map (R81, R84, R88). -/
theorem encodesR2_of_instrOf {f : Reg → Reg → Instr} (op : Fin 32)
    (h : ∀ d a b imm, instrOf op d a b imm = f d a) : EncodesR2 op.val f :=
  fun w d a hop hd ha => encodesR3_of_instrOf (f := fun d a _ => f d a) op h w d a (bField w) hop hd ha rfl

/-- An instruction whose effect is to write `v` to `x[d]` completes and leaves `v` there. -/
theorem completes_of_setReg {i : Instr} {s : State} {d : Reg} {v : Word} {P : State → Prop}
    (hi : exec i s = .next (s.setReg d v)) (hP : ∀ t, t.reg d = v → P t) : Completes i s P := by
  obtain ⟨t, ht, -, hPt⟩ := completes_setReg hi hP
  exact ⟨t, ht, hPt⟩

end Sys2Proof.Claims
end

section
/-! What a binary64 pattern stands for: a NaN, an infinity, a zero or a finite value as the statements read patterns
(R14, log 12). -/

open Sys2Proof.Claims

namespace Sys2Proof.Machine.Binary64

section Pattern
variable {v : Word}

theorem ofBits_of_isNaN (h : IsNaN v) : ofBits v = .nan := (if_pos h.1).trans (if_neg h.2)

theorem ofBits_of_isInf (h : IsInf v) : ofBits v = .inf (signOf v) := by
  rw [signOf_eq_signBit]
  exact (if_pos h.1).trans (if_pos h.2)

theorem not_isNaN_of_isInf (h : IsInf v) : ¬ IsNaN v := fun hn => hn.2 h.2

theorem not_isNaN_of_isFin (h : IsFin v) : ¬ IsNaN v := fun hn => h hn.1

theorem not_isInf_of_isFin (h : IsFin v) : ¬ IsInf v := fun hi => h hi.1

theorem isFin_of_isZero (h : IsZero v) : IsFin v := fun he => absurd (h.1.symm.trans he) (by decide)

theorem isInf_or_isFin (h : ¬ IsNaN v) : IsInf v ∨ IsFin v := by
  by_cases he : expOf v = 2047
  · exact .inl ⟨he, by_contra fun hf => h ⟨he, hf⟩⟩
  · exact .inr he

theorem isNaN_eq_true_iff : isNaN v = true ↔ IsNaN v := by
  rw [isNaN, decide_eq_true_iff]
  refine ⟨fun h => by_contra fun hn => ?_, ofBits_of_isNaN⟩
  rcases isInf_or_isFin hn with hi | hf
  · cases (ofBits_of_isInf hi).symm.trans h
  · cases (ofBits_of_isFin hf).symm.trans h

theorem magOf_eq_zero_iff : magOf (v.toNat % 2 ^ 63) = 0 ↔ IsZero v := by
  refine ⟨fun h => by_contra fun hz => magOf_ne_zero hz h, fun ⟨he, hf⟩ => ?_⟩
  rw [expOf] at he
  rw [fracOf] at hf
  rw [magOf, if_pos (by omega)]
  omega

theorem ofBits_of_isZero (h : IsZero v) : ofBits v = .fin (signBit v) 0 := by
  rw [ofBits_of_isFin (isFin_of_isZero h), magOf_eq_zero_iff.2 h]

/-- An infinity has one pattern for each sign. -/
theorem eq_infBits_of_isInf (h : IsInf v) : v = infBits (signOf v) := by
  obtain ⟨he, hf⟩ := h
  have hv := v.isLt
  rw [expOf] at he
  rw [fracOf] at hf
  apply BitVec.eq_of_toNat_eq
  rw [infBits, pack_toNat _ (by decide), signOf_eq_signBit, signBit, infPattern]
  simp only [decide_eq_true_eq]
  split <;> omega

end Pattern

/-! ### The patterns that the operations give -/

theorem signOf_infBits (neg : Bool) : signOf (infBits neg) = neg :=
  (signOf_eq_signBit _).trans (signBit_pack neg (by decide))

theorem isZero_zeroBits (neg : Bool) : IsZero (zeroBits neg) :=
  ⟨expOf_pack neg (by decide), fracOf_pack neg (by decide)⟩

theorem signOf_zeroBits (neg : Bool) : signOf (zeroBits neg) = neg := signOf_round neg 0 1

/-- A rounded value is finite or an infinity (R147). -/
theorem not_isNaN_of_roundsTo {r : ℚ} {v : Word} (h : RoundsTo r v) : ¬ IsNaN v := by
  rw [RoundsTo] at h
  split at h
  · exact not_isNaN_of_isInf h
  · exact not_isNaN_of_isFin h.1

/-! ### The subtrahend with its sign flipped -/

section FlipSign
variable (q : Word)

theorem fracOf_flipSign : fracOf (flipSign q) = fracOf q := by
  have := flipSign_mod q
  unfold fracOf
  omega

theorem isNaN_flipSign_iff : IsNaN (flipSign q) ↔ IsNaN q := by
  rw [IsNaN, expOf_flipSign, fracOf_flipSign, IsNaN]

theorem isInf_flipSign_iff : IsInf (flipSign q) ↔ IsInf q := by
  rw [IsInf, expOf_flipSign, fracOf_flipSign, IsInf]

end FlipSign

end Sys2Proof.Machine.Binary64
end

section
/-! The NaN rule (R148), and what an operation gives for operands that it does not send to a NaN: an infinity, a zero,
or a rounded value (R141 to R144, R147). -/

open Sys2Proof.Claims

namespace Sys2Proof.Machine.Binary64

section Operands
variable {p q : Word}

/-! ### The NaN rule -/

theorem nanResult_of_not_isNaN (hp : ¬ IsNaN p) (hq : ¬ IsNaN q) : nanResult p q = defaultNaN := by
  rw [nanResult, if_neg (mt isNaN_eq_true_iff.1 hp), if_neg (mt isNaN_eq_true_iff.1 hq)]

/-- An operation follows the NaN rule when it gives `nanResult` wherever the rule asks for a NaN, and nowhere else a
NaN. -/
theorem nanRule_of_nanResult {op : ℕ} {v : Word} (hnan : IsNaN p ∨ IsNaN q ∨ Invalid op p q → v = nanResult p q)
    (hvalid : ¬ IsNaN p → ¬ IsNaN q → ¬ Invalid op p q → ¬ IsNaN v) : NaNRule op p q v := by
  refine ⟨fun hp => ?left, fun hp hq => ?right, fun hp hq hi => ?invalid, hvalid⟩
  case left =>
    rw [hnan (.inl hp), nanResult, if_pos (isNaN_eq_true_iff.2 hp)]
    rfl
  case right =>
    rw [hnan (.inr (.inl hq)), nanResult, if_neg (mt isNaN_eq_true_iff.1 hp), if_pos (isNaN_eq_true_iff.2 hq)]
    rfl
  case invalid => rw [hnan (.inr (.inr hi)), nanResult_of_not_isNaN hp hq, defaultNaN]

theorem invalid_fadd_iff : Invalid 9 p q ↔ IsInf p ∧ IsInf q ∧ signOf p ≠ signOf q := by simp [Invalid]

/-- `fsub` is invalid where `fadd` of the flipped subtrahend is (R142, R148). -/
theorem invalid_fsub_iff : Invalid 10 p q ↔ Invalid 9 p (flipSign q) := by
  simp [Invalid, isInf_flipSign_iff, signOf_flipSign]

theorem invalid_fmul_iff : Invalid 11 p q ↔ IsZero p ∧ IsInf q ∨ IsInf p ∧ IsZero q := by simp [Invalid]

theorem invalid_fdiv_iff : Invalid 12 p q ↔ IsZero p ∧ IsZero q ∨ IsInf p ∧ IsInf q := by simp [Invalid]

/-! ### NaN operands and invalid operations -/

theorem addValues_eq_none (h : IsNaN p ∨ IsNaN q ∨ Invalid 9 p q) : addValues (ofBits p) (ofBits q) = none := by
  rcases h with hp | hq | hi
  · rw [ofBits_of_isNaN hp, addValues]
  · rw [ofBits_of_isNaN hq]
    cases ofBits p <;> rfl
  · obtain ⟨hp, hq, hne⟩ := invalid_fadd_iff.1 hi
    rw [ofBits_of_isInf hp, ofBits_of_isInf hq, addValues, if_neg hne]

theorem add_eq_nanResult (h : IsNaN p ∨ IsNaN q ∨ Invalid 9 p q) : add p q = nanResult p q := by
  rw [add, addValues_eq_none h, Option.getD_none]

theorem sub_eq_nanResult (h : IsNaN p ∨ IsNaN q ∨ Invalid 10 p q) : sub p q = nanResult p q := by
  rw [invalid_fsub_iff, ← isNaN_flipSign_iff q] at h
  rw [sub, addValues_eq_none h, Option.getD_none]

theorem mul_eq_nanResult (h : IsNaN p ∨ IsNaN q ∨ Invalid 11 p q) : mul p q = nanResult p q := by
  rw [invalid_fmul_iff] at h
  rcases h with hp | hq | ⟨hp, hq⟩ | ⟨hp, hq⟩
  · rw [mul, ofBits_of_isNaN hp]
    rfl
  · rw [mul, ofBits_of_isNaN hq]
    cases ofBits p <;> rfl
  · rw [mul, ofBits_of_isZero hp, ofBits_of_isInf hq]
    rfl
  · rw [mul, ofBits_of_isInf hp, ofBits_of_isZero hq]
    rfl

theorem div_eq_nanResult (h : IsNaN p ∨ IsNaN q ∨ Invalid 12 p q) : div p q = nanResult p q := by
  rw [invalid_fdiv_iff] at h
  rcases h with hp | hq | ⟨hp, hq⟩ | ⟨hp, hq⟩
  · rw [div, ofBits_of_isNaN hp]
    rfl
  · rw [div, ofBits_of_isNaN hq]
    cases ofBits p <;> rfl
  · rw [div, ofBits_of_isZero hp, ofBits_of_isZero hq]
    rfl
  · rw [div, ofBits_of_isInf hp, ofBits_of_isInf hq]
    rfl

/-! ### Valid operations -/

section Valid
variable (hp : ¬ IsNaN p) (hq : ¬ IsNaN q)

section Sum
variable (h : ¬ Invalid 9 p q)
include h

include hq in
theorem add_of_isInf_left (ip : IsInf p) : add p q = p := by
  rcases isInf_or_isFin hq with iq | fq
  case inl =>
    have hs : signOf p = signOf q := by_contra fun hne => h (invalid_fadd_iff.2 ⟨ip, iq, hne⟩)
    rw [add, ofBits_of_isInf ip, ofBits_of_isInf iq, addValues, if_pos hs]
    exact (eq_infBits_of_isInf ip).symm
  case inr =>
    rw [add, ofBits_of_isInf ip, ofBits_of_isFin fq]
    exact (eq_infBits_of_isInf ip).symm

include hp in
theorem add_of_isInf_right (iq : IsInf q) : add p q = q := by
  rcases isInf_or_isFin hp with ip | fp
  case inl =>
    have hs : signOf p = signOf q := by_contra fun hne => h (invalid_fadd_iff.2 ⟨ip, iq, hne⟩)
    rw [add_of_isInf_left (not_isNaN_of_isInf iq) h ip, eq_infBits_of_isInf ip, hs]
    exact (eq_infBits_of_isInf iq).symm
  case inr =>
    rw [add, ofBits_of_isFin fp, ofBits_of_isInf iq]
    exact (eq_infBits_of_isInf iq).symm

include hp hq in
theorem not_isNaN_add : ¬ IsNaN (add p q) := by
  rcases isInf_or_isFin hp with ip | fp
  · rwa [add_of_isInf_left hq h ip]
  rcases isInf_or_isFin hq with iq | fq
  · rwa [add_of_isInf_right hp h iq]
  · exact not_isNaN_of_roundsTo (add_spec fp fq).1

end Sum

include hp hq in
theorem sub_eq_add_flipSign : sub p q = add p (flipSign q) := by
  rw [sub, add, nanResult_of_not_isNaN hp hq, nanResult_of_not_isNaN hp (mt (isNaN_flipSign_iff q).1 hq)]

section Difference
variable (h : ¬ Invalid 10 p q)
include hp hq h

theorem sub_of_isInf_left (ip : IsInf p) : sub p q = p := by
  rw [sub_eq_add_flipSign hp hq]
  exact add_of_isInf_left (mt (isNaN_flipSign_iff q).1 hq) (mt invalid_fsub_iff.2 h) ip

theorem sub_of_isInf_right (iq : IsInf q) : sub p q = flipSign q := by
  rw [sub_eq_add_flipSign hp hq]
  exact add_of_isInf_right hp (mt invalid_fsub_iff.2 h) ((isInf_flipSign_iff q).2 iq)

theorem not_isNaN_sub : ¬ IsNaN (sub p q) := by
  rw [sub_eq_add_flipSign hp hq]
  exact not_isNaN_add hp (mt (isNaN_flipSign_iff q).1 hq) (mt invalid_fsub_iff.2 h)

end Difference

include hp hq

section Product
variable (h : ¬ Invalid 11 p q)
include h

/-- An infinite factor gives an infinity: the other one is not a zero (R143, R148). -/
theorem mul_of_isInf (hinf : IsInf p ∨ IsInf q) : mul p q = infBits (signOf p != signOf q) := by
  rw [invalid_fmul_iff, not_or] at h
  obtain ⟨hzi, hiz⟩ := h
  rcases isInf_or_isFin hp with ip | fp <;> rcases isInf_or_isFin hq with iq | fq
  case inl.inl =>
    rw [mul, ofBits_of_isInf ip, ofBits_of_isInf iq]
    rfl
  case inl.inr =>
    have hq0 : magOf (q.toNat % 2 ^ 63) ≠ 0 := fun h0 => hiz ⟨ip, magOf_eq_zero_iff.1 h0⟩
    rw [mul, ofBits_of_isInf ip, ofBits_of_isFin fq, mulValues, if_neg hq0, signOf_eq_signBit q, Option.getD_some]
  case inr.inl =>
    have hp0 : magOf (p.toNat % 2 ^ 63) ≠ 0 := fun h0 => hzi ⟨magOf_eq_zero_iff.1 h0, iq⟩
    rw [mul, ofBits_of_isFin fp, ofBits_of_isInf iq, mulValues, if_neg hp0, signOf_eq_signBit p, Option.getD_some]
  case inr.inr => exact (hinf.elim (not_isInf_of_isFin fp) (not_isInf_of_isFin fq)).elim

theorem not_isNaN_mul : ¬ IsNaN (mul p q) := by
  by_cases hinf : IsInf p ∨ IsInf q
  · rw [mul_of_isInf hp hq h hinf]
    exact not_isNaN_of_isInf (isInf_infBits _)
  · obtain ⟨ip, iq⟩ := not_or.1 hinf
    exact not_isNaN_of_roundsTo
      (mul_spec ((isInf_or_isFin hp).resolve_left ip) ((isInf_or_isFin hq).resolve_left iq)).1

end Product

section Quotient
variable (h : ¬ Invalid 12 p q)
include h

/-- An infinite dividend, or a zero divisor, gives an infinity: the divisor is finite, and the dividend is not a zero
(R144, R147, R148). -/
theorem div_of_isInf_or_isZero (hpq : IsInf p ∨ IsZero q) : div p q = infBits (signOf p != signOf q) := by
  rw [invalid_fdiv_iff, not_or] at h
  obtain ⟨hzz, hii⟩ := h
  rcases isInf_or_isFin hp with ip | fp
  case inl =>
    have fq := (isInf_or_isFin hq).resolve_left fun iq => hii ⟨ip, iq⟩
    rw [div, ofBits_of_isInf ip, ofBits_of_isFin fq, divValues, signOf_eq_signBit q, Option.getD_some]
  case inr =>
    have zq := hpq.resolve_left (not_isInf_of_isFin fp)
    have hp0 : magOf (p.toNat % 2 ^ 63) ≠ 0 := fun h0 => hzz ⟨magOf_eq_zero_iff.1 h0, zq⟩
    rw [div, ofBits_of_isFin fp, ofBits_of_isZero zq, divValues, if_pos rfl, if_neg hp0, signOf_eq_signBit p,
      signOf_eq_signBit q, Option.getD_some]

omit hq in
/-- An infinite divisor gives a zero: the dividend is finite (R144, R148). -/
theorem div_of_isInf_right (iq : IsInf q) : div p q = zeroBits (signOf p != signOf q) := by
  have fp := (isInf_or_isFin hp).resolve_left fun ip => h (invalid_fdiv_iff.2 (.inr ⟨ip, iq⟩))
  rw [div, ofBits_of_isFin fp, ofBits_of_isInf iq, divValues, signOf_eq_signBit p, Option.getD_some]

theorem not_isNaN_div : ¬ IsNaN (div p q) := by
  rcases isInf_or_isFin hq with iq | fq
  · rw [div_of_isInf_right hp h iq]
    exact not_isNaN_of_isFin (isFin_of_isZero (isZero_zeroBits _))
  by_cases hpq : IsInf p ∨ IsZero q
  · rw [div_of_isInf_or_isZero hp hq h hpq]
    exact not_isNaN_of_isInf (isInf_infBits _)
  · obtain ⟨ip, zq⟩ := not_or.1 hpq
    exact not_isNaN_of_roundsTo (div_spec ((isInf_or_isFin hp).resolve_left ip) fq zq).1

end Quotient

end Valid

end Operands

end Sys2Proof.Machine.Binary64
end

section
/-! The statements on NaN results and on infinities (R141 to R144, R147, R148). -/

open Sys2Proof.Claims

namespace Sys2Proof.Proofs

open Sys2Proof.Machine

/-- Settles O35: each operation gives `nanResult` for a NaN operand and an invalid operation, and an infinity, a zero
or a rounded value otherwise. -/
theorem floatResultsFollowTheNaNRule : Obligations.FloatResultsFollowTheNaNRule := by
  refine fun s d a b => ⟨?fadd, ?fsub, ?fmul, ?fdiv⟩
  case fadd =>
    exact completes_setReg rfl fun _ ht => ht ▸
      Binary64.nanRule_of_nanResult Binary64.add_eq_nanResult Binary64.not_isNaN_add
  case fsub =>
    exact completes_setReg rfl fun _ ht => ht ▸
      Binary64.nanRule_of_nanResult Binary64.sub_eq_nanResult Binary64.not_isNaN_sub
  case fmul =>
    exact completes_setReg rfl fun _ ht => ht ▸
      Binary64.nanRule_of_nanResult Binary64.mul_eq_nanResult Binary64.not_isNaN_mul
  case fdiv =>
    exact completes_setReg rfl fun _ ht => ht ▸
      Binary64.nanRule_of_nanResult Binary64.div_eq_nanResult Binary64.not_isNaN_div

/-- Settles O38: a valid operation with an infinity or a zero divisor gives an infinity or a zero of the sign named. -/
theorem floatInfinitiesFollowIeee : Obligations.FloatInfinitiesFollowIeee := by
  refine fun s d a b hp hq => ⟨?fadd, ?fsub, ?fmul, ?fdiv⟩
  case fadd =>
    exact completes_of_setReg rfl fun _ ht => ht ▸ fun h =>
      ⟨Binary64.add_of_isInf_left hq h, Binary64.add_of_isInf_right hp h⟩
  case fsub =>
    refine completes_of_setReg rfl fun _ ht => ht ▸ fun h => ⟨Binary64.sub_of_isInf_left hp hq h, fun hinf => ?_⟩
    rw [Binary64.sub_of_isInf_right hp hq h hinf]
    exact ⟨(Binary64.isInf_flipSign_iff _).2 hinf, Binary64.signOf_flipSign _⟩
  case fmul =>
    refine completes_of_setReg rfl fun _ ht => ht ▸ fun h hinf => ?_
    rw [Binary64.mul_of_isInf hp hq h hinf]
    exact ⟨Binary64.isInf_infBits _, Binary64.signOf_infBits _⟩
  case fdiv =>
    refine completes_of_setReg rfl fun _ ht => ht ▸ fun h => ⟨fun hpq => ?infinity, fun hinf => ?zero⟩
    case infinity =>
      rw [Binary64.div_of_isInf_or_isZero hp hq h hpq]
      exact ⟨Binary64.isInf_infBits _, Binary64.signOf_infBits _⟩
    case zero =>
      rw [Binary64.div_of_isInf_right hp h hinf]
      exact ⟨Binary64.isZero_zeroBits _, Binary64.signOf_zeroBits _⟩

end Sys2Proof.Proofs
end

section
/-! The conversions between 64-bit integers and binary64: `ftoi` truncates and saturates (R145), `itof` rounds (R146),
and rounding is exact up to 2^53 (R149). -/

open Sys2Proof.Claims

namespace Sys2Proof.Machine.Binary64

/-! ### From binary64 -/

section ToUnsigned
variable {v : Word}

theorem toUnsigned_of_isNaN (h : IsNaN v) : toUnsigned v = 0 := by
  rw [toUnsigned, ofBits_of_isNaN h]

theorem toUnsigned_of_isInf (h : IsInf v) : toUnsigned v = if signOf v then 0 else 0xFFFFFFFFFFFFFFFF := by
  rw [toUnsigned, ofBits_of_isInf h]

theorem toUnsigned_of_isFin (h : IsFin v) : toUnsigned v = if signBit v then 0
    else if 2 ^ 64 * one ≤ magOf (v.toNat % 2 ^ 63) then 0xFFFFFFFFFFFFFFFF
    else BitVec.ofNat 64 (magOf (v.toNat % 2 ^ 63) / one) := by
  rw [toUnsigned, ofBits_of_isFin h]

theorem value_eq_div (v : Word) : value v = (units v : ℚ) / one :=
  (eq_div_iff one_cast_pos.ne').2 (value_mul_one v)

theorem value_nonpos (hs : signBit v = true) : value v ≤ 0 := by
  rw [value_eq_div, units, signed, if_pos hs, Int.cast_neg, Int.cast_natCast, neg_div]
  exact neg_nonpos.2 (div_nonneg (Nat.cast_nonneg _) (Nat.cast_nonneg _))

theorem value_eq_magOf_div (hs : signBit v = false) : value v = (magOf (v.toNat % 2 ^ 63) : ℚ) / one := by
  rw [value_eq_div, units, signed, hs, if_neg Bool.false_ne_true, Int.cast_natCast]

/-- The saturation boundary in units of 2^-1074. -/
theorem two_pow_le_value_iff (hs : signBit v = false) :
    2 ^ 64 ≤ value v ↔ 2 ^ 64 * one ≤ magOf (v.toNat % 2 ^ 63) := by
  rw [value_eq_magOf_div hs, le_div_iff₀ one_cast_pos, ← Nat.cast_le (α := ℚ), Nat.cast_mul, Nat.cast_pow,
    Nat.cast_ofNat]

theorem floor_value (hs : signBit v = false) : ⌊value v⌋ = (magOf (v.toNat % 2 ^ 63) / one : ℕ) := by
  rw [value_eq_magOf_div hs, Int.natCast_div]
  exact Rat.floor_intCast_div_natCast _ _

section Finite
variable (h : IsFin v)
include h

theorem toUnsigned_of_signBit (hs : signBit v = true) : toUnsigned v = 0 := by
  rw [toUnsigned_of_isFin h, if_pos hs]

/-- A negative value has its sign bit set, and gives 0 whether it is at most -1 or truncates to 0 (R145). -/
theorem toUnsigned_of_value_neg (hv : value v < 0) : toUnsigned v = 0 := by
  refine toUnsigned_of_signBit h (Bool.eq_true_of_not_eq_false fun hs => hv.not_ge ?_)
  rw [value_eq_magOf_div hs]
  exact div_nonneg (Nat.cast_nonneg _) (Nat.cast_nonneg _)

theorem toUnsigned_of_two_pow_le_value (hv : 2 ^ 64 ≤ value v) : toUnsigned v = 0xFFFFFFFFFFFFFFFF := by
  have hs : signBit v = false := Bool.eq_false_of_not_eq_true fun hs => by linarith [value_nonpos hs]
  rw [toUnsigned_of_isFin h, hs, if_neg Bool.false_ne_true, if_pos ((two_pow_le_value_iff hs).1 hv)]

/-- A value from 0 up gives its integer part, which fits in 64 bits (R145). -/
theorem toUnsigned_toNat_of_value_nonneg (hv0 : 0 ≤ value v) (hv : value v < 2 ^ 64) :
    ((toUnsigned v).toNat : ℤ) = ⌊value v⌋ := by
  cases hs : signBit v
  case false =>
    have hmag := Nat.not_le.1 (mt (two_pow_le_value_iff hs).2 hv.not_ge)
    have hdiv : magOf (v.toNat % 2 ^ 63) / one < 2 ^ 64 := Nat.div_lt_of_lt_mul (by rwa [Nat.mul_comm])
    rw [toUnsigned_of_isFin h, hs, if_neg Bool.false_ne_true, if_neg hmag.not_ge, floor_value hs, BitVec.toNat_ofNat,
      Nat.mod_eq_of_lt hdiv]
  case true =>
    rw [toUnsigned_of_signBit h hs, (value_nonpos hs).antisymm hv0, Int.floor_zero]
    rfl

end Finite

end ToUnsigned

/-! ### To binary64 -/

theorem roundsTo_ofUnsigned (p : Word) : RoundsTo (p.toNat : ℚ) (ofUnsigned p) := by
  refine roundsTo_round Nat.one_pos ?_
  rw [signed, if_neg Bool.false_ne_true, Int.cast_natCast, Nat.cast_mul, Nat.cast_one, mul_one]

/-- Every 64-bit integer is far below the overflow boundary (R146). -/
theorem isFin_ofUnsigned (p : Word) : IsFin (ofUnsigned p) := by
  have hp : (p.toNat : ℚ) < 2 ^ 64 := by exact_mod_cast p.isLt
  have hbound : (2 ^ 64 : ℚ) < 2 ^ 1024 - 2 ^ 970 := by
    have hpow : (2 ^ 64 : ℚ) ≤ 2 ^ 970 := pow_le_pow_right₀ one_le_two (by decide)
    have hsplit : (2 ^ 1024 : ℚ) = 2 ^ 54 * 2 ^ 970 := by rw [← pow_add]
    rw [hsplit]
    generalize (2 : ℚ) ^ 970 = D at hpow
    linarith
  have h := roundsTo_ofUnsigned p
  rw [RoundsTo, Nat.abs_cast, if_neg (hp.trans hbound).not_ge] at h
  exact h.1

/-! ### Integers up to 2^53 -/

/-- A rounded value that does not overflow has the units of its significand at its scale. -/
theorem units_round {neg : Bool} {num den : ℕ} (hd : 0 < den) (h : IsFin (round neg num den)) :
    units (round neg num den) = signed neg (roundedMag num den) := by
  have hlow : roundLow num den < 2 ^ 63 := (roundLow_le num den).trans_lt (by decide)
  have hne : roundLow num den ≠ infPattern := fun he => by
    rw [round, he] at h
    exact not_isInf_of_isFin h (isInf_infBits neg)
  rw [round, units_pack neg hlow, roundedMag, ← magOf_round num hd]
  rw [roundLow_eq] at hne ⊢
  rw [Nat.min_eq_left (by omega)]

theorem roundHalfEven_mul_mul_right (num den : ℕ) {c : ℕ} (hc : 0 < c) :
    roundHalfEven (num * c) (den * c) = roundHalfEven num den := by
  simp only [roundHalfEven, Nat.mul_div_mul_right _ _ hc, Nat.mul_mod_mul_right, ← Nat.mul_assoc,
    Nat.mul_lt_mul_right hc]

theorem roundHalfEven_one (num : ℕ) : roundHalfEven num 1 = num := by
  rw [roundHalfEven, Nat.mod_one, Nat.div_one]
  rfl

theorem scale_mul_pow_le {n j : ℕ} (e : ℕ) (h : n < 2 ^ (53 + j)) : scale (n * 2 ^ e) 1 ≤ e + j := by
  by_contra hk
  have hlo := (scale_bounds (n * 2 ^ e) Nat.one_pos).2 (by omega)
  rw [Nat.mul_one] at hlo
  have hpow := hlo.trans_lt (Nat.mul_lt_mul_of_pos_right h (by positivity))
  rw [← Nat.pow_add, Nat.pow_lt_pow_iff_right Nat.one_lt_two] at hpow
  omega

theorem lt_scale_mul_pow {n j : ℕ} (e : ℕ) (h : 2 ^ (53 + j) ≤ n) : e + j < scale (n * 2 ^ e) 1 := by
  have hup := (scale_bounds (n * 2 ^ e) Nat.one_pos).1
  rw [Nat.mul_one] at hup
  have hpow := (Nat.mul_le_mul_right (2 ^ e) h).trans_lt hup
  rw [← Nat.pow_add, Nat.pow_lt_pow_iff_right Nat.one_lt_two] at hpow
  omega

/-- An integer of at most 53 bits is a multiple of its last place, so rounding keeps it. -/
theorem roundedMag_of_lt {n : ℕ} (e : ℕ) (h : n < 2 ^ 53) : roundedMag (n * 2 ^ e) 1 = n * 2 ^ e := by
  have hscale : scale (n * 2 ^ e) 1 ≤ e := scale_mul_pow_le (j := 0) e h
  rw [roundedMag, significand]
  generalize scale (n * 2 ^ e) 1 = k at hscale
  obtain ⟨j, rfl⟩ := Nat.exists_eq_add_of_le' hscale
  rw [Nat.pow_add, ← Nat.mul_assoc, roundHalfEven_mul_mul_right _ _ (by positivity), roundHalfEven_one]

/-- The last place of an integer of 54 bits is 2. -/
theorem roundedMag_of_54_bits {n m : ℕ} (e : ℕ) (hle : 2 ^ 53 ≤ n) (hlt : n < 2 ^ 54)
    (hm : roundHalfEven n 2 * 2 = m) : roundedMag (n * 2 ^ e) 1 = m * 2 ^ e := by
  have hscale : scale (n * 2 ^ e) 1 = e + 1 :=
    Nat.le_antisymm (scale_mul_pow_le (j := 1) e hlt) (lt_scale_mul_pow (j := 0) e hle)
  rw [roundedMag, significand, hscale, Nat.pow_succ', Nat.one_mul, roundHalfEven_mul_mul_right _ _ (by positivity),
    ← Nat.mul_assoc, hm]

theorem one_eq_two_pow : one = 2 ^ 1074 := by
  rw [← Nat.cast_inj (R := ℚ), one_cast, Nat.cast_pow, Nat.cast_ofNat]

/-- What `ftoi` gives back of what `itof` rounded (R149). -/
theorem toUnsigned_ofUnsigned {p : Word} {m : ℕ} (hm : m < 2 ^ 64)
    (h : roundedMag (p.toNat * 2 ^ 1074) 1 = m * 2 ^ 1074) : (toUnsigned (ofUnsigned p)).toNat = m := by
  rw [← one_eq_two_pow] at h
  have hfin := isFin_ofUnsigned p
  have hunits : units (ofUnsigned p) = (m * one : ℕ) := by
    rw [← h]
    exact units_round Nat.one_pos hfin
  have hvalue : value (ofUnsigned p) = m := by
    rw [value_eq_div, hunits, Int.cast_natCast, Nat.cast_mul, mul_div_cancel_right₀ _ one_cast_pos.ne']
  have hlt : value (ofUnsigned p) < 2 ^ 64 := by
    rw [hvalue]
    exact_mod_cast hm
  have htrunc := toUnsigned_toNat_of_value_nonneg hfin (hvalue ▸ Nat.cast_nonneg m) hlt
  rw [hvalue, Int.floor_natCast] at htrunc
  exact_mod_cast htrunc

theorem toUnsigned_ofUnsigned_of_54_bits {p : Word} {m : ℕ} (hle : 2 ^ 53 ≤ p.toNat) (hlt : p.toNat < 2 ^ 54)
    (hm : roundHalfEven p.toNat 2 * 2 = m) (hm64 : m < 2 ^ 64) : (toUnsigned (ofUnsigned p)).toNat = m :=
  toUnsigned_ofUnsigned hm64 (roundedMag_of_54_bits 1074 hle hlt hm)

theorem toUnsigned_ofUnsigned_of_le {p : Word} (h : p.toNat ≤ 2 ^ 53) : toUnsigned (ofUnsigned p) = p := by
  apply BitVec.eq_of_toNat_eq
  rcases h.lt_or_eq with hlt | heq
  · exact toUnsigned_ofUnsigned p.isLt (roundedMag_of_lt 1074 hlt)
  · refine toUnsigned_ofUnsigned_of_54_bits heq.ge (by omega) ?_ p.isLt
    rw [heq]
    decide

/-- 2^53 + 1 is half-way between the multiples 2^53 and 2^53 + 2 of its last place, and the first has the even
significand. -/
theorem toUnsigned_ofUnsigned_of_tie {p : Word} (h : p.toNat = 2 ^ 53 + 1) :
    (toUnsigned (ofUnsigned p)).toNat = 2 ^ 53 := by
  refine toUnsigned_ofUnsigned_of_54_bits (by omega) (by omega) ?_ (by decide)
  rw [h]
  decide

end Sys2Proof.Machine.Binary64
end

section
/-! The statements on the conversions (R145, R146, R149). -/

open Sys2Proof.Claims

namespace Sys2Proof.Proofs

open Sys2Proof.Machine

/-- Settles O39: a NaN, an infinity, and a finite value below 0, from 2^64 on, or between. -/
theorem ftoiTruncatesAndSaturates : Obligations.FtoiTruncatesAndSaturates := by
  refine ⟨encodesR2_of_instrOf 13 fun _ _ _ _ => rfl, fun s d a => completes_setReg rfl fun t ht => ?_⟩
  rw [ht]
  refine ⟨Binary64.toUnsigned_of_isNaN, Binary64.toUnsigned_of_isInf, fun hf hv => ?low,
    Binary64.toUnsigned_of_two_pow_le_value, fun hf hlow hhigh => ?truncates⟩
  case low => exact Binary64.toUnsigned_of_value_neg hf (hv.trans_lt (by norm_num))
  case truncates =>
    split
    case isTrue hv => exact Binary64.toUnsigned_toNat_of_value_nonneg hf hv hhigh
    case isFalse hv =>
      have hneg := not_le.1 hv
      rw [Binary64.toUnsigned_of_value_neg hf hneg, Int.ceil_eq_zero_iff.2 ⟨hlow, hneg.le⟩]
      rfl

/-- Settles O40: the integer is a whole number of units, and below the overflow boundary. -/
theorem itofRoundsToNearestEven : Obligations.ItofRoundsToNearestEven :=
  ⟨encodesR2_of_instrOf 14 fun _ _ _ _ => rfl, fun _ _ _ => completes_setReg rfl fun _ ht => ht ▸
    ⟨Binary64.isFin_ofUnsigned _, Binary64.roundsTo_ofUnsigned _, Binary64.signOf_round ..⟩⟩

/-- Settles O41: the last place is at most 1 below 2^53 and 2 from there to 2^54, so 2^53 is kept and 2^53 + 1 is a tie
that goes to the even 2^53. -/
theorem ftoiOfItofIsIdentityBelow2Pow53 : Obligations.FtoiOfItofIsIdentityBelow2Pow53 := by
  intro s d e a
  refine ⟨_, _, rfl, rfl, ?_⟩
  rw [State.reg_setReg, if_pos rfl, State.reg_setReg, if_pos rfl]
  exact ⟨Binary64.toUnsigned_ofUnsigned_of_le, Binary64.toUnsigned_ofUnsigned_of_tie⟩

end Sys2Proof.Proofs
end

section
/-! The logic and shift operations bit by bit (R160 to R165). -/

namespace Sys2Proof.Machine.Alu

variable {p q : Word} {i : Nat}

theorem getLsbD_and : (and p q).getLsbD i = (p.getLsbD i && q.getLsbD i) := BitVec.getLsbD_and

theorem getLsbD_or : (or p q).getLsbD i = (p.getLsbD i || q.getLsbD i) := BitVec.getLsbD_or

theorem getLsbD_xor : (xor p q).getLsbD i = (p.getLsbD i != q.getLsbD i) := BitVec.getLsbD_xor

theorem getLsbD_not (hi : i < 64) : (not p).getLsbD i = !p.getLsbD i := by
  rw [not, BitVec.getLsbD_not, decide_eq_true hi, Bool.true_and]

/-- Bits move up, and zeros enter below. -/
theorem getLsbD_shl (hq : q.toNat < 64) (hi : i < 64) :
    (shl p q).getLsbD i = (decide (q.toNat ≤ i) && p.getLsbD (i - q.toNat)) := by
  rw [shl_short hq, BitVec.getLsbD_shiftLeft, decide_eq_true hi, Bool.true_and, ← decide_not, decide_eq_decide.2 not_lt]

/-- Bits move down; the zeros that enter from the top are the bits from 64 on, which every word has clear. -/
theorem getLsbD_shr (hq : q.toNat < 64) :
    (shr p q).getLsbD i = (decide (i + q.toNat < 64) && p.getLsbD (i + q.toNat)) := by
  rw [shr_short hq, BitVec.getLsbD_ushiftRight, Nat.add_comm]
  by_cases h : i + q.toNat < 64
  · rw [decide_eq_true h, Bool.true_and]
  · rw [decide_eq_false h, Bool.false_and, BitVec.getLsbD_of_ge p _ (Nat.not_lt.1 h)]

end Sys2Proof.Machine.Alu
end

section
/-! The statements on logic and shifts (R160 to R166). -/

open Sys2Proof.Claims

namespace Sys2Proof.Proofs

open Sys2Proof.Machine

/-- Settles O33: each completes with its operation's value, whose bits are those of the operands combined. -/
theorem bitwiseLogic : Obligations.BitwiseLogic := by
  refine ⟨encodesR3_of_instrOf 15 fun _ _ _ _ => rfl, encodesR3_of_instrOf 16 fun _ _ _ _ => rfl,
    encodesR3_of_instrOf 17 fun _ _ _ _ => rfl, encodesR2_of_instrOf 18 fun _ _ _ _ => rfl,
    fun s d a b => ⟨?and, ?or, ?xor, ?not⟩⟩
  case and => exact completes_setReg rfl fun _ ht => ht ▸ fun _ _ => Alu.getLsbD_and
  case or => exact completes_setReg rfl fun _ ht => ht ▸ fun _ _ => Alu.getLsbD_or
  case xor => exact completes_setReg rfl fun _ ht => ht ▸ fun _ _ => Alu.getLsbD_xor
  case not => exact completes_setReg rfl fun _ ht => ht ▸ fun _ hi => Alu.getLsbD_not hi

/-- Settles O34: an amount of 64 or more gives 0, and a smaller one moves the bits. -/
theorem shiftsUseTheWholeAmount : Obligations.ShiftsUseTheWholeAmount := by
  refine ⟨encodesR3_of_instrOf 19 fun _ _ _ _ => rfl, encodesR3_of_instrOf 20 fun _ _ _ _ => rfl,
    fun s d a b => ⟨?shl, ?shr⟩⟩
  case shl => exact completes_setReg rfl fun _ ht => ht ▸ ⟨Alu.shl_long, fun hq _ hi => Alu.getLsbD_shl hq hi⟩
  case shr => exact completes_setReg rfl fun _ ht => ht ▸ ⟨Alu.shr_long, fun hq _ _ => Alu.getLsbD_shr hq⟩

end Sys2Proof.Proofs
end

section
/-! `ld` and `st` on each side of the bound of R55, and the load that finds the bytes of a value (R180, R181, R183). -/

namespace Sys2Proof.Machine

section Bounds
variable {s : State} {d a : Reg}

/-- A load inside memory writes the word of its eight bytes (R180). -/
theorem exec_ld_of_le (h : (s.reg a).toNat + 8 ≤ s.memSize.val) :
    ∃ v : Word, v.toNat = s.mem.readLE (s.reg a).toNat 8 ∧ exec (.ld d a) s = .next (s.setReg d v) := by
  rcases execLd_cases d a s with ⟨-, hv⟩ | ⟨hlt, -⟩
  · exact hv
  · exact absurd h (Nat.not_le.2 hlt)

theorem exec_ld_of_lt (h : s.memSize.val < (s.reg a).toNat + 8) :
    exec (.ld d a) s = .next (s.raise (.memoryFault .load (s.reg a))) := by
  rcases execLd_cases d a s with ⟨hle, -⟩ | ⟨-, hf⟩
  · exact absurd hle (Nat.not_le.2 h)
  · exact hf

theorem exec_st_of_le (h : (s.reg d).toNat + 8 ≤ s.memSize.val) :
    exec (.st d a) s = .next (s.stored (s.reg d) (s.reg a)) := by
  rcases execSt_cases d a s with ⟨-, hst⟩ | ⟨hlt, -⟩
  · exact hst
  · exact absurd h (Nat.not_le.2 hlt)

theorem exec_st_of_lt (h : s.memSize.val < (s.reg d).toNat + 8) :
    exec (.st d a) s = .next (s.raise (.memoryFault .store (s.reg d))) := by
  rcases execSt_cases d a s with ⟨hle, -⟩ | ⟨-, hf⟩
  · exact absurd hle (Nat.not_le.2 h)
  · exact hf

end Bounds

/-- A load of eight bytes that are those of `v` writes `v`. -/
theorem exec_ld_of_bytes {s : State} {d a : Reg} {v : Word} (hr : (s.reg a).toNat + 8 ≤ s.memSize.val)
    (hb : ∀ k, k < 8 → (s.byteAt ((s.reg a).toNat + k)).toNat = v.toNat / 256 ^ k % 256) :
    exec (.ld d a) s = .next (s.setReg d v) := by
  obtain ⟨w, hw, hld⟩ := exec_ld_of_le (d := d) hr
  have hwv : w = v := BitVec.eq_of_toNat_eq <| by
    rw [hw, Memory.readLE_eq (m := s.mem) hb]
    exact Nat.mod_eq_of_lt v.isLt
  rw [hld, hwv]

end Sys2Proof.Machine
end

section
/-! The statements on `ld` and `st`. -/

open Sys2Proof.Claims

namespace Sys2Proof.Proofs

open Sys2Proof.Machine

/-- Settles O42: inside memory the effect is a write of the eight bytes' word to `x[d]`, and outside it the raise. -/
theorem loadReadsEightBytes : Obligations.LoadReadsEightBytes := by
  refine ⟨encodesR2_of_instrOf 21 fun _ _ _ _ => rfl, fun s d a => ⟨fun hr => ?loads, fun hr => ?faults⟩⟩
  case loads =>
    obtain ⟨v, hv, hld⟩ := exec_ld_of_le hr
    refine completes_setReg hld fun t ht k hk => ?_
    rw [ht, hv]
    exact Memory.readLE_byte _ _ _ _ hk
  case faults => exact ⟨_, exec_ld_of_lt hr, raises_raise s _⟩

/-- Settles O43: inside memory the effect is a little-endian write of eight bytes and nothing else, and outside it the
raise. -/
theorem storeWritesEightBytes : Obligations.StoreWritesEightBytes := by
  refine ⟨encodesR2_of_instrOf 22 fun _ _ _ _ => rfl, fun s d a => ⟨fun hm hr => ?stores, fun hr => ?faults⟩⟩
  case stores =>
    exact ⟨_, exec_st_of_le hr, s.reg_stored _ _, ⟨rfl, rfl, rfl, rfl⟩, fun _ hk => s.stored_byteAt _ _ hm hk,
      fun _ hy => s.stored_byteAt_ne _ _ hy⟩
  case faults => exact ⟨_, exec_st_of_lt hr, raises_raise s _⟩

/-- Settles O44: the eight bytes the load finds are those the store left, which are the bytes of the value. -/
theorem storeThenLoadReturnsTheValue : Obligations.StoreThenLoadReturnsTheValue := by
  intro s d a hm hr
  refine ⟨_, exec_st_of_le hr, fun u e c hc hsize hbytes => ?_⟩
  have hstored : ∀ k, k < 8 → (u.byteAt ((u.reg c).toNat + k)).toNat = (s.reg a).toNat / 256 ^ k % 256 := by
    intro k hk
    rw [hc, hbytes k hk, s.stored_byteAt _ _ hm hk]
  have hld : exec (.ld e c) u = .next (u.setReg e (s.reg a)) := exec_ld_of_bytes (by rwa [hc, hsize]) hstored
  exact completes_of_setReg hld fun _ hv => hv

end Sys2Proof.Proofs
end

section
/-! Words as the statements read them: the fields of an I word, and a written value read at the program counter (R84,
R201). -/

namespace Sys2Proof.Claims

open Sys2Proof.Machine

/-- Every word of an I opcode decodes to that opcode's entry in the opcode map (R81, R84, R88). -/
theorem encodesI_of_instrOf {f : Reg → Nat → Instr} (op : Fin 32)
    (h : ∀ d a b imm, instrOf op d a b imm = f d imm) : EncodesI op.val f := by
  intro w d hop hd
  have eop : opField w = op := Fin.ext hop
  have ed : dField w = d := Fin.ext hd.symm
  rw [decode, eop, ed, immField_eq_bits, h]

/-- A value in `x[d]` is the program counter's when `d` is 31 (R23, R201). -/
theorem pc_of_reg_eq {t : State} {d : Reg} {v : Word} (h : t.reg d = v) : d = 31 → t.pc = v := by
  rintro rfl
  exact h

end Sys2Proof.Claims
end

section
/-! The statement on `ldi` and `mov`. -/

open Sys2Proof.Claims

namespace Sys2Proof.Proofs

open Sys2Proof.Machine

/-- Settles O46: each effect is one write of `x[d]`, and a 22-bit immediate is its zero extension's number. -/
theorem loadImmediateAndMove : Obligations.LoadImmediateAndMove := by
  refine ⟨encodesI_of_instrOf 23 fun _ _ _ _ => rfl, encodesR2_of_instrOf 24 fun _ _ _ _ => rfl,
    fun s d a imm => ⟨fun himm => ?ldi, ?mov⟩⟩
  case ldi =>
    refine completes_setReg rfl fun t ht => ?_
    have hnum : (BitVec.ofNat 64 imm : Word).toNat = imm := (sysCode_eq_iff himm _).1 rfl
    exact ⟨ht ▸ hnum, fun hd => pc_of_reg_eq ht hd ▸ hnum⟩
  case mov => exact completes_setReg rfl fun t ht => ⟨ht, pc_of_reg_eq ht⟩

end Sys2Proof.Proofs
end

section
/-! Jumps: a write of register 31 in place of another register, and `jnz` (R200, R201). -/

namespace Sys2Proof.Machine

open Sys2Proof.Claims

/-- A write of `v` to register 31 makes `v` the program counter, with no offset, where the same write to `d` leaves `v`
in `x[d]` (R201). -/
theorem State.setReg_jumps (s : State) (d : Reg) (v : Word) :
    (s.setReg 31 v).pc = (s.setReg d v).reg d ∧ ∀ r, r ≠ 31 → (s.setReg 31 v).reg r = s.reg r := by
  refine ⟨?_, (onlyReg_setReg s 31 v).1⟩
  rw [State.reg_setReg, if_pos rfl]
  exact s.pc_setPc v

/-- The instructions `f d`, one for each destination `d`, all write one value or all raise one fault: operands and
checks do not depend on the destination (R35, R201). -/
def WritesOrRaises (f : Reg → Instr) (s : State) : Prop :=
  (∃ v, ∀ d, exec (f d) s = .next (s.setReg d v)) ∨ ∃ c, ∀ d, exec (f d) s = .next (s.raise c)

section WritesOrRaises
variable {f : Reg → Instr} {s : State}

theorem writesOrRaises_of_setReg {v : Word} (hf : ∀ d, exec (f d) s = .next (s.setReg d v)) : WritesOrRaises f s :=
  .inl ⟨v, hf⟩

theorem writesOrRaises_of_formR3Fault {g : Word → Word → Except ArithReason Word} {a b : Reg}
    (hf : ∀ d, exec (f d) s = formR3Fault g d a b s) : WritesOrRaises f s := by
  cases hg : g (s.reg a) (s.reg b) with
  | ok v => exact .inl ⟨v, fun d => (hf d).trans (formR3Fault_ok hg)⟩
  | error e => exact .inr ⟨.arithmeticFault e, fun d => (hf d).trans (formR3Fault_error hg)⟩

/-- Where `f d` completes it has written `x[d]`, so `f 31` jumps to the value written. -/
theorem WritesOrRaises.jumps (h : WritesOrRaises f s) {d : Reg} {t : State} (ht : exec (f d) s = .next t)
    (hrun : t.run = .running) :
    ∃ u, exec (f 31) s = .next u ∧ u.pc = t.reg d ∧ ∀ r, r ≠ 31 → u.reg r = s.reg r := by
  rcases h with ⟨v, hwrite⟩ | ⟨c, hraise⟩
  · obtain rfl := Host.Outcome.next.inj ((hwrite d).symm.trans ht)
    exact ⟨_, hwrite 31, s.setReg_jumps d v⟩
  · obtain rfl := Host.Outcome.next.inj ((hraise d).symm.trans ht)
    cases hrun

end WritesOrRaises

theorem writesOrRaises_ld (a : Reg) (s : State) : WritesOrRaises (.ld · a) s := by
  rcases s.busLoad_cases (s.reg a) with ⟨-, v, hv, -⟩ | ⟨-, he⟩
  · exact .inl ⟨v, fun d => by rw [exec, execLd, hv]⟩
  · exact .inr ⟨_, fun d => by rw [exec, execLd, he]⟩

/-- The divisions may raise, and the other R3 instructions always write (R36). -/
theorem writesOrRaises_of_mem_destR3 {f : Reg → Reg → Reg → Instr} (hf : f ∈ destR3) (a b : Reg) (s : State) :
    WritesOrRaises (f · a b) s := by
  revert f
  simp only [destR3, List.forall_mem_cons, List.not_mem_nil, false_implies, implies_true, and_true]
  refine ⟨?sdiv, ?smod, ?add, ?sub, ?mul, ?udiv, ?umod, ?fadd, ?fsub, ?fmul, ?fdiv, ?and, ?or, ?xor, ?shl, ?shr⟩
  case sdiv | smod | udiv | umod => exact writesOrRaises_of_formR3Fault fun _ => rfl
  all_goals exact writesOrRaises_of_setReg fun _ => rfl

/-- A load may raise, and the other R2 instructions with a destination always write. -/
theorem writesOrRaises_of_mem_destR2 {f : Reg → Reg → Instr} (hf : f ∈ destR2) (a : Reg) (s : State) :
    WritesOrRaises (f · a) s := by
  revert f
  simp only [destR2, List.forall_mem_cons, List.not_mem_nil, false_implies, implies_true, and_true]
  refine ⟨?ftoi, ?itof, ?not, ?ld, ?mov⟩
  case ld => exact writesOrRaises_ld a s
  all_goals exact writesOrRaises_of_setReg fun _ => rfl

/-- An instruction that neither has a destination nor is a `jnz` leaves the advanced program counter where it does not
fault (R201). -/
theorem pc_eq_of_exec {i : Instr} {s t : State} (h : exec i s = .next t) (hdest : destReg i = none)
    (hjnz : ∀ d a, i ≠ .jnz d a) (hfault : ∀ r, t.run ≠ .faulted r) : t.pc = s.pc := by
  obtain ⟨u, hu, heff⟩ := exec_cases i s
  obtain rfl := Host.Outcome.next.inj (hu.symm.trans h)
  exact heff.pc_eq (by rw [hdest]; nofun) (fun d a hi => absurd hi (hjnz d a)) hfault

end Sys2Proof.Machine

namespace Sys2Proof.Claims

open Sys2Proof.Machine

theorem onlyReg_refl (d : Reg) (s : State) : OnlyReg d s s :=
  ⟨fun _ _ => rfl, fun _ => rfl, rfl, rfl, rfl, rfl⟩

end Sys2Proof.Claims
end

section
/-! The statements on control transfer. -/

open Sys2Proof.Claims

namespace Sys2Proof.Proofs

open Sys2Proof.Machine

/-- Settles O21: the value an instruction writes does not depend on its destination, so with destination 31 it is the
program counter; `nop`, `sys` and `st` have no destination. -/
theorem writingRegister31Jumps : Obligations.WritingRegister31Jumps := by
  refine ⟨fun f hf d a b s t _ ht hrun => ?r3, fun f hf d a s t _ ht hrun => ?r2, fun d imm s => ?ldi,
    fun s t _ hfault h => ?noDestination⟩
  case r3 => exact (writesOrRaises_of_mem_destR3 hf a b s).jumps ht hrun
  case r2 => exact (writesOrRaises_of_mem_destR2 hf a s).jumps ht hrun
  case ldi => exact ⟨_, _, rfl, rfl, s.setReg_jumps d _⟩
  case noDestination =>
    rcases h with h | ⟨d, imm, h⟩ | ⟨d, a, h⟩
    all_goals exact pc_eq_of_exec h rfl nofun hfault

/-- Settles O47: a taken jump is a write of register 31 alone, to the old `x[d]`, and one not taken changes nothing; with
`d = 31` both leave the program counter, and with `a = 31` it is the condition itself. -/
theorem jumpIfNotZero : Obligations.JumpIfNotZero := by
  refine ⟨encodesR2_of_instrOf 25 fun _ _ _ _ => rfl, fun s d a => ?_⟩
  rcases execJnz_cases d a s with ⟨hne, htaken⟩ | ⟨h0, hnotTaken⟩
  · refine completes_setReg htaken fun t (ht : t.pc = s.reg d) => ⟨fun _ => ht, ?_, ?_, fun _ _ => ht⟩
    · exact fun hz => absurd hz (Alu.toNat_ne_zero hne)
    · rintro rfl
      exact ht
  · refine ⟨s, hnotTaken, onlyReg_refl 31 s, ?_, fun _ => rfl, fun _ => rfl, ?_⟩
    · exact fun hne => absurd (congrArg BitVec.toNat h0) hne
    · rintro rfl hne
      exact absurd h0 hne

end Sys2Proof.Proofs
end

section
/-! Faults and diagnostic lines, effect by effect: a core that faults has raised, which undoes the advance, and only a
hypercall emits (R226, R230, R234). -/

namespace Sys2Proof.Machine

/-- A raise after the advance leaves every register as it was before the step: the advance, the one change so far, is
undone (R91, R226). -/
theorem State.reg_raise_advance (s : State) (w : InsnWord) (c : FaultCause) (r : Reg) :
    ((s.advance w).raise c).reg r = s.reg r := by
  rw [State.reg_raise]
  split
  case isTrue hr =>
    subst hr
    rw [State.pc_advance, BitVec.add_sub_cancel, State.pc]
  case isFalse hr => rw [State.reg_advance, if_neg hr]

section Effects
variable {i : Instr} {s t : State}

/-- A running core that an instruction leaves faulted is the one it raises to (R226). -/
theorem Effect.eq_raise_of_faulted (h : Effect i s t) (hrun : s.run = .running) {r : FaultRecord}
    (hr : t.run = .faulted r) : ∃ c, t = s.raise c := by
  rcases h.raises_or_cannot with ⟨c, -, ht⟩ | hno
  · exact ⟨c, ht⟩
  · exact absurd hr (h.not_faulted hrun hno r)

/-- An instruction other than `sys` emits nothing (R234). -/
theorem Effect.diag_eq_of_not_sys (h : Effect i s t) (hi : ∀ d imm, i ≠ .sys d imm) : t.diag = s.diag := by
  cases h with
  | write | nop | notTaken | taken | store | raised => rfl
  | hypercall hsys => exact absurd hsys (hi _ _)

end Effects

end Sys2Proof.Machine
end

section
/-! The statements on faults and diagnostic lines. -/

open Sys2Proof.Claims

namespace Sys2Proof.Proofs

open Sys2Proof.Machine

/-- Settles O13: a failed fetch changes nothing and records no word; after a fetch the core has raised, which undoes the
advance and records the fetched word. -/
theorem faultsArePrecise : Obligations.FaultsArePrecise := by
  intro s t r hrun hstep hr
  rcases step_cases hstep with ⟨hlt, rfl⟩ | ⟨w, u, hw, heff, rfl⟩
  · obtain rfl := RunState.faulted.inj ((State.fetchFault_run ..).symm.trans hr)
    exact ⟨State.reg_fetchFault s _, fun _ => rfl, rfl, rfl, rfl, ⟨fun _ => hlt, fun _ => rfl⟩, nofun⟩
  · obtain ⟨c, rfl⟩ := heff.eq_raise_of_faulted hrun hr
    obtain rfl := RunState.faulted.inj ((State.raise_run ..).symm.trans hr)
    have hword := wordAt_iff_fetch.2 hw
    refine ⟨s.reg_raise_advance w c, fun _ => rfl, rfl, rfl, ?pc, ⟨nofun, fun hlt => ?inside⟩, ?word⟩
    case pc => exact (State.pc_raise ..).symm.trans (s.reg_raise_advance w c pcReg)
    case inside => exact absurd hword.1 (Nat.not_le.2 hlt)
    case word =>
      rintro v ⟨⟩
      exact hword

/-- Settles O17: `sys` sends its code and `x[d]` after the advance, and the host emits for code 3 alone; no other word
emits. -/
theorem onlyHypercall3EmitsALine : Obligations.OnlyHypercall3EmitsALine := by
  intro s t w _ hw hstep
  obtain ⟨u, heff, rfl⟩ := effect_of_step hw hstep
  by_cases hop : bits w 31 27 = 1
  · have himm : bits w 21 0 < 2 ^ 22 := immField_eq_bits w ▸ immField_lt w
    rw [decode_eq_sys_iff.2 ⟨hop, rfl, rfl⟩] at heff
    obtain rfl := heff.eq_hypercall
    rw [regAt_eq_dField, ← reg_advance_eq_afterAdvance s w]
    refine ⟨fun ⟨_, hcode⟩ => ?emits, fun hne => ?silent⟩
    case emits =>
      rw [hcode]
      exact ⟨diagLine _, isDiagLine_diagLine _, rfl⟩
    case silent =>
      have hcode : bits w 21 0 ≠ 3 := fun h => hne ⟨hop, h⟩
      exact State.hypercall_diag_of_ne _ (sysCode_ne himm hcode)
  · have hsys : ∀ d imm, decode w ≠ .sys d imm := fun d imm h => hop (decode_eq_sys_iff.1 h).1
    exact ⟨fun ⟨h, _⟩ => absurd h hop, fun _ => heff.diag_eq_of_not_sys hsys⟩

/-- Settles O27: the host answers code 3 by continuing and emits the one line of `x[d]`, which is its signed decimal. -/
theorem diagnosticLineIsSignedDecimal : Obligations.DiagnosticLineIsSignedDecimal := by
  intro s d
  obtain ⟨digits, hdigits, hline⟩ := isDiagLine_diagLine (s.reg d)
  exact ⟨s.hypercall ⟨3, s.reg d⟩, rfl, rfl, rfl, digits, congrArg (s.diag ++ [·]) hline, hdigits⟩

end Sys2Proof.Proofs
end

section
/-! The failed checks of construction, and where the core it makes holds `INIT_PC` (R23, R225, R261, R263). -/

namespace Sys2Proof.Machine

section Params
variable {p : Params}

theorem State.construct_eq_memorySize (h : p.memSize.val = 0) : State.construct p = .error .memorySize := if_pos h

theorem State.construct_eq_initialPc (hpos : 0 < p.memSize.val) (h : p.memSize.val ≤ p.initPc.toNat) :
    State.construct p = .error .initialPc := (if_neg hpos.ne').trans (if_pos h)

@[simp] theorem Params.pc_core : p.core.pc = p.initPc := (p.reg_core pcReg).trans (dif_neg (by decide))

end Params

end Sys2Proof.Machine
end

section
/-! The statements on construction. -/

namespace Sys2Proof.Proofs

open Sys2Proof.Machine

/-- Settles O49: the two checks in their order, and a core that passes both is running, so the four bytes at an `INIT_PC`
in the last three fail its first fetch. -/
theorem constructionChecks : Obligations.ConstructionChecks := by
  refine fun p => ⟨State.construct_eq_memorySize, State.construct_eq_initialPc, fun hpc =>
    ⟨p.core, State.construct_eq_ok_iff.2 ⟨hpc, rfl⟩, fun hlt => ?firstFetch⟩, rfl, rfl⟩
  rcases step_running (s := p.core) rfl with ⟨-, hs⟩ | ⟨hle, -⟩
  · exact ⟨_, hs, by rw [State.fetchFault_run, Params.pc_core]⟩
  · rw [Params.pc_core] at hle
    exact absurd hlt (Nat.not_lt.2 hle)

/-- Settles O50: construction makes the parameters' core, whose registers are `INIT_GPR` and then `INIT_PC`. -/
theorem constructionValues : Obligations.ConstructionValues := by
  intro p s hs
  obtain ⟨-, rfl⟩ := State.construct_eq_ok_iff.1 hs
  have hgpr : ∀ i : Fin 31, p.core.reg i.castSucc = p.initGpr[i.val] := fun i =>
    (p.reg_core i.castSucc).trans (dif_pos i.isLt)
  exact ⟨hgpr, Params.pc_core, Params.pc_core, fun _ => rfl, rfl, rfl, rfl⟩

end Sys2Proof.Proofs
end
